-- ==== Sys2Proof/Word.lean ====
section
/-! DEFINITION. The word types of the core and their plainest conversions (spec 00_scope.md section 5). -/

namespace Sys2Proof

/-- One byte: a memory cell, a register, an opcode or an operand (R6 CELL_WIDTH and REG_WIDTH, R11, R30).
An unsigned number 0..255 wherever it is compared, printed or used as an index. -/
abbrev Byte := BitVec 8

/-- The program counter's 9 bits (R6 PC_WIDTH, R18). The spec's values are 0..258. -/
abbrev PcWord := BitVec 9

/-- The number of a general register, 0..7 (R11, R13). -/
abbrev RegIdx := Fin 8

/-- `zext_9(v)` of 00_scope.md section 5: the byte as a 9-bit number of the same value. -/
def zext9 (v : Byte) : PcWord := v.setWidth 9

@[simp] theorem zext9_toNat (v : Byte) : (zext9 v).toNat = v.toNat := by
  have := v.isLt
  simp only [zext9, BitVec.toNat_setWidth]
  omega

end Sys2Proof
end

