-- ==== Sys2Proof/Config.lean ====
section
/-! DEFINITION. The implementation parameters of rule R6: the fixed ones as constants, the open ones
(`SP_RESET`, `FLAG_RESET`) with the defaults the spec gives them. The third open parameter, `OPCODE`, has its
type here as well; its default values stand in Decode.lean, beside the decoder that reads them. -/

namespace Sys2Proof

/-- The flag register `fl` (R19): `none` is the state in which no flag is set, and each of the other three is the
state in which exactly that flag is set. -/
inductive FlagState where
  /-- No flag is set (before the first CMP). -/
  | none
  /-- Only the Less flag is set. -/
  | less
  /-- Only the Greater flag is set. -/
  | greater
  /-- Only the Equal flag is set. -/
  | equal
  deriving DecidableEq, Repr

namespace Config

/-- `MEM_SIZE`: 256 cells (R6, R30). -/
abbrev memSize : Nat := 256

/-- `SP_INDEX`: register 7 is the stack pointer (R6, R12). -/
abbrev spIndex : RegIdx := 7

/-- `PC_RESET`: 0 (R6, R201). -/
def pcReset : PcWord := 0

/-- The default of `SP_RESET`, 0xF4 (R6, R29, decision D1). DESIGN CHOICE of the spec, assumption log 1. -/
def spReset : Byte := 0xF4

/-- The default of `FLAG_RESET`, no flag set (R6, R22, decision D4). DESIGN CHOICE of the spec, assumption log 2. -/
def flagReset : FlagState := .none

end Config

end Sys2Proof
end

