-- ==== Sys2Proof/Machine/State.lean ====
section
/-! DEFINITION. The state of the core, whole (R10): `mem`, `x[0..7]`, `pc`, `fl`, `run`, `fault`, `out` and nothing
else (R27, R28). The dispatch table, the image and the parameters are not state (R26). -/

namespace Sys2Proof.Machine

/-- The run state of the engine (R23, R70). -/
inductive RunState where
  /-- The engine takes steps. -/
  | running
  /-- Clean exit, by HLT. Terminal. -/
  | halted
  /-- Error exit, by a fault. Terminal. -/
  | faulted
  deriving DecidableEq, Repr

/-- Where an out-of-range index arose: the six kinds of R172. -/
inductive OobKind where
  /-- The fetch stage, `pc > 255`. -/
  | fetch
  /-- An operand's address is above 255. -/
  | operandFetch
  /-- A register operand byte is above 7. -/
  | registerIndex
  /-- PUSH or CALL with `x[7] = 0`. -/
  | stackWrite
  /-- POP or RET that would take the stack pointer to 256. -/
  | stackPointer
  /-- CALL whose return address is above 255. -/
  | returnAddress
  deriving DecidableEq, Repr

/-- The core's own fault causes, each with the info R176 records (R170 to R173). Taking one is a step of the machine
to `run = faulted` (R178); it is not a `Machine.Fault`, which is how a model stops. -/
inductive Cause where
  /-- The byte fetched as an opcode is not in the dispatch table (R171). -/
  | unknownOpcode (opcode : Byte)
  /-- A memory or register index is outside its range (R172): the kind, and the offending index (-1 for stackWrite). -/
  | outOfBoundsAccess (kind : OobKind) (index : Int)
  /-- An arithmetic operation the unit does not recognise (R173). Nothing raises it; it is here because the spec gives
  it a cause code (R175). Assumption log 16. -/
  | unsupportedALUOperation
  deriving DecidableEq, Repr

/-- The fault record (R24, R176): the cause with its info, and the pc at the start of the faulting step. -/
structure FaultRecord where
  cause : Cause
  fpc : PcWord
  deriving DecidableEq, Repr

/-- Memory: the listed cells as (address, byte) pairs. An address that is not listed reads as 0 (R30, R36). The
canonical form is `Memory.wf` of Ops.lean. -/
abbrev Memory := List Host.Cell

/-- The whole state (R10). -/
structure State where
  /-- 256 cells of 8 bits (R30). -/
  mem : Memory
  /-- `x[0]` to `x[7]`, 8 bits each (R11); `x[7]` is the stack pointer (R12). -/
  regs : Vector Byte 8
  /-- The program counter (R15, R18). -/
  pc : PcWord
  /-- The flag register (R19). -/
  fl : FlagState
  /-- The run state (R23). -/
  run : RunState
  /-- The fault record; empty until a fault (R24). -/
  fault : Option FaultRecord
  /-- The values PRN has emitted, oldest first (R25). -/
  out : List Byte
  deriving DecidableEq, Repr

/-- How this model's step stops with no next state. The core's faults are NOT here: the spec describes what taking one
does (R178), so a step takes it and answers a next state. What is left is R71: "In `Halted` and in `Faulted` the core
takes no step and changes no state". -/
inductive Fault where
  /-- Raised by `step` alone, in a state with `run = halted`: no step exists there (R71, decision D20). Safe: nothing
  is claimed of a step that the spec does not define. Assumption log 4. -/
  | alreadyHalted
  /-- Raised by `step` alone, in a state with `run = faulted`: no step exists there (R71, R180). Safe: nothing is
  claimed of a step that the spec does not define. Assumption log 4. -/
  | alreadyFaulted
  deriving DecidableEq, Repr

/-- How this model refuses an instruction. -/
inductive Refusal where
  /-- An instruction of the opcode table that has no meaning yet. Raised by no arm of `exec`: all thirteen have one.
  Safe. -/
  | notModelled (mnemonic : String)
  deriving DecidableEq, Repr

/-- What a meaning and a step answer. -/
abbrev Result := Host.Outcome State Fault Refusal

/-- The state after steps 1 to 3 of R200, for any choice of the two open parameters (R202): memory all zeros,
`x[0..6] = 0`, `x[7] = SP_RESET`, `pc = 0`, `fl = FLAG_RESET`, `Running`, no fault, no output. -/
def State.resetWith (spReset : Byte) (flagReset : FlagState) : State where
  mem := []
  regs := #v[0, 0, 0, 0, 0, 0, 0, spReset]
  pc := Config.pcReset
  fl := flagReset
  run := .running
  fault := none
  out := []

/-- The machine right after reset, with the default parameters and the empty image (R29, R150, R200). A program comes
in through `boot` of Boot.lean, which is step 4 of R200. -/
def State.reset : State := .resetWith Config.spReset Config.flagReset

end Sys2Proof.Machine
end

