-- ==== Sys2Proof/Machine/Ops.lean ====
section
/-! DEFINITION. The named operations over memory, registers, the pc, the output and the run state, and taking a
fault. There is no return from a fault (R180): the spec has no instruction for it and `faulted` is terminal. -/

namespace Sys2Proof.Machine

/-! ## Memory -/

/-- What an address that is not listed reads as: memory is zero-initialized (R30, R36). -/
def unlistedByte : Byte := 0

/-- The byte in cell `a` (R36): `MemRead(a, 1)`. A read changes nothing. Callers have checked `a ≤ 255` (R33);
assumption log 14 says what the function answers elsewhere. -/
def Memory.read : Memory → Nat → Byte
  | [], _ => unlistedByte
  | (k, v) :: m, a => if k = a then v else Memory.read m a

/-- The cells without cell `a`. -/
def Memory.unlist (m : Memory) (a : Nat) : Memory := m.filter (fun c => decide (c.1 ≠ a))

/-- The cells with cell `a` put in front of the first larger address. -/
def Memory.list : Memory → Nat → Byte → Memory
  | [], a, v => [(a, v)]
  | (k, w) :: m, a, v => if a < k then (a, v) :: (k, w) :: m else (k, w) :: Memory.list m a v

/-- `MemWrite(a, 1, v)` (R36): cell `a` becomes `v` and no other cell changes. Callers have checked `a ≤ 255` (R33).
Writing what an unlisted cell reads as takes the cell off the list, so that equal memories are equal lists. -/
def Memory.write (m : Memory) (a : Nat) (v : Byte) : Memory :=
  if v = unlistedByte then m.unlist a else (m.unlist a).list a v

/-- The addresses from `lo` up are strictly rising and below 256, and no cell holds what an unlisted one reads as. -/
def Memory.wfFrom (lo : Nat) : Memory → Bool
  | [] => true
  | (k, v) :: m => decide (lo ≤ k) && decide (k < Config.memSize) && decide (v ≠ unlistedByte) && Memory.wfFrom (k + 1) m

/-- The canonical form of memory. -/
def Memory.wf (m : Memory) : Bool := Memory.wfFrom 0 m

/-- Store bytes at ascending addresses from `a`, as the loader does (R34, R150); a byte whose address is outside memory
is not stored. -/
def Memory.storeAt (m : Memory) (a : Nat) : List Byte → Memory
  | [] => m
  | b :: bs => if a < Config.memSize then Memory.storeAt (m.write a b) (a + 1) bs else m

/-- Up to `n` bytes at ascending addresses from `a`, stopping at the top of memory: no read is made at an address above
255 and none wraps (R33). -/
def Memory.readUpTo (m : Memory) (a : Nat) : Nat → List Byte
  | 0 => []
  | n + 1 => if a < Config.memSize then m.read a :: Memory.readUpTo m (a + 1) n else []

/-! ## Registers, pc, flags, output, run state -/

namespace State

/-- Read register `i` (R11): no register is hardwired. -/
def readReg (s : State) (i : RegIdx) : Byte := s.regs[i]

/-- Write register `i` (R11). -/
def writeReg (s : State) (i : RegIdx) (v : Byte) : State := { s with regs := s.regs.set i v }

/-- The stack pointer is `x[7]` (R12). -/
def sp (s : State) : Byte := s.readReg Config.spIndex

/-- Write the stack pointer. -/
def setSp (s : State) (v : Byte) : State := s.writeReg Config.spIndex v

/-- `pc <- pc + n`, in 9 bits (R16, R17): at the top of memory the sum is held, not wrapped (R18, decision D2, assumption log 6). -/
def advance (s : State) (n : Nat) : State := { s with pc := s.pc + BitVec.ofNat 9 n }

/-- `pc <- zext_9(v)`: every target is an absolute address (R138). -/
def jumpTo (s : State) (v : Byte) : State := { s with pc := zext9 v }

/-- `fl <- f` (R21). -/
def setFlags (s : State) (f : FlagState) : State := { s with fl := f }

/-- `emit(v)`: append to the output sequence (R25, R91). -/
def emit (s : State) (v : Byte) : State := { s with out := s.out ++ [v] }

/-- `run <- Halted` (R78, R90). -/
def halt (s : State) : State := { s with run := .halted }

/-- The byte in cell `a` of the state's memory. -/
def readByte (s : State) (a : Nat) : Byte := s.mem.read a

/-- Store one byte in cell `a` of the state's memory. -/
def writeByte (s : State) (a : Nat) (v : Byte) : State := { s with mem := s.mem.write a v }

/-- Taking a fault, whole (R176, R178): the run state becomes `faulted` and the record is written, with the pc of the
faulting instruction. Nothing else changes (R179, decision D14, assumption log 11); every check comes before every effect, so `s` is the state at the
start of the step. There is no handler, no vector and no saved register. -/
def raise (s : State) (c : Cause) : State := { s with run := .faulted, fault := some ⟨c, s.pc⟩ }

end State

/-- The outcome of an instruction that raises a fault: the next state is the one the fault leaves (R178). -/
def fails (s : State) (c : Cause) : Result := .next (s.raise c)

/-! ## The stack (R117) -/

/-- The push that PUSH and CALL share (R115, R125): refuse the address -1, lower `x[7]`, and go on in the state with the
lowered stack pointer. -/
def withPushRoom (s : State) (k : State → Result) : Result :=
  if s.sp = 0 then fails s (.outOfBoundsAccess .stackWrite (-1)) else k (s.setSp (s.sp - 1))

/-- Store the pushed byte in the cell the stack pointer names. -/
def State.storeTop (s : State) (v : Byte) : State := s.writeByte s.sp.toNat v

/-- The byte on top of the stack (R117). The address is a byte, so it is always in range (R33). -/
def State.top (s : State) : Byte := s.readByte s.sp.toNat

/-- The check that POP and RET share (R116, R126): `t` is the value the stack pointer has when it is incremented, and
256 is no stack pointer. -/
def withPopRoom (s : State) (t : Byte) (k : Result) : Result :=
  if t = 255 then fails s (.outOfBoundsAccess .stackPointer 256) else k

/-- `x[7] <- x[7] + 1`, after the check of `withPopRoom`. -/
def State.raiseSp (s : State) : State := s.setSp (s.sp + 1)

/-- The return address of CALL, `pc + 2` (R125): checked to be a memory index, then one byte. -/
def withReturnAddress (s : State) (k : Byte → Result) : Result :=
  if 255 < s.pc.toNat + 2 then fails s (.outOfBoundsAccess .returnAddress ((s.pc.toNat : Int) + 2))
  else k (BitVec.ofNat 8 (s.pc.toNat + 2))

end Sys2Proof.Machine
end

