-- ==== Sys2Proof/Machine/Flags.lean ====
section
/-! DEFINITION. The one flag computation of the core, CMP's, and the one test of the flags, that of JEQ and JNE
(R19 to R21). There is no carry, overflow, zero or sign flag. -/

namespace Sys2Proof.Machine

/-- The result of comparing two bytes as unsigned numbers, regA on the left (R107, decision D5, assumption log 12). -/
def compareBytes (a b : Byte) : FlagState :=
  if a.toNat = b.toNat then .equal else if a.toNat < b.toNat then .less else .greater

/-- "The Equal flag is set" (R19). This is the only thing an instruction can ask about the flags (R21). -/
def State.equalSet (s : State) : Bool := decide (s.fl = .equal)

end Sys2Proof.Machine
end

