-- ==== Sys2Proof/Syntax.lean ====
section
/-! DEFINITION. The instructions: one constructor per row of spec/opcode_table.json, the mnemonics that the dispatch
table is indexed by, and the four formats of rule R51. -/

namespace Sys2Proof

/-- The thirteen mnemonics, in the source's table order (R2). -/
inductive Mnemonic where
  | hlt | ldi | prn | add | mul | cmp | push | pop | call | ret | jmp | jeq | jne
  deriving DecidableEq, Repr

/-- All thirteen, once each, in the order of R2. -/
def Mnemonic.all : List Mnemonic :=
  [.hlt, .ldi, .prn, .add, .mul, .cmp, .push, .pop, .call, .ret, .jmp, .jeq, .jne]

/-- The four instruction formats (R51). -/
inductive Format where
  /-- `N`: no operand. -/
  | n
  /-- `R`: one register index. -/
  | r
  /-- `RR`: two register indices, regA then regB. -/
  | rr
  /-- `RI`: a register index, then an 8-bit immediate. -/
  | ri
  deriving DecidableEq, Repr

/-- How many operand bytes follow the opcode (R50, R51). -/
def Format.operandCount : Format → Nat
  | .n => 0
  | .r => 1
  | .rr => 2
  | .ri => 2

/-- The "Instructions" column of R51's table, read the other way. -/
def Mnemonic.format : Mnemonic → Format
  | .hlt => .n
  | .ldi => .ri
  | .prn => .r
  | .add => .rr
  | .mul => .rr
  | .cmp => .rr
  | .push => .r
  | .pop => .r
  | .call => .r
  | .ret => .n
  | .jmp => .r
  | .jeq => .r
  | .jne => .r

/-- The number of operand bytes of the instruction with this mnemonic. -/
def Mnemonic.operandCount (m : Mnemonic) : Nat := m.format.operandCount

/-- An assignment of opcode bytes to mnemonics: the parameter `OPCODE` of R6 and R55. -/
abbrev OpcodeMap := Mnemonic → Byte

/-- What R55 asks of every assignment: it is injective, and it has the three bytes that the source gives (R54). -/
def OpcodeMap.Legal (opc : OpcodeMap) : Prop :=
  (∀ m n, opc m = opc n → m = n) ∧ opc .hlt = 0x01 ∧ opc .ldi = 0x82 ∧ opc .prn = 0x47

/-- One instruction. A register operand is held as the whole operand byte (R52): a byte above 7 is no illegal
encoding (R58) but a fault that the instruction raises when it runs (R76), so it has to be in the syntax. -/
inductive Instr where
  /-- HLT, halt (R90). -/
  | hlt
  /-- LDI r, imm8, load immediate (R100). -/
  | ldi (r imm : Byte)
  /-- PRN r, print register (R91). -/
  | prn (r : Byte)
  /-- ADD a, b, add registers (R105). -/
  | add (a b : Byte)
  /-- MUL a, b, multiply registers (R106). -/
  | mul (a b : Byte)
  /-- CMP a, b, compare registers (R107). -/
  | cmp (a b : Byte)
  /-- PUSH r, push register (R115). -/
  | push (r : Byte)
  /-- POP r, pop into register (R116). -/
  | pop (r : Byte)
  /-- CALL r, call the subroutine at the address in a register (R125). -/
  | call (r : Byte)
  /-- RET, return from subroutine (R126). -/
  | ret
  /-- JMP r, jump (R135). -/
  | jmp (r : Byte)
  /-- JEQ r, jump if equal (R136). -/
  | jeq (r : Byte)
  /-- JNE r, jump if not equal (R137). -/
  | jne (r : Byte)
  deriving DecidableEq, Repr

namespace Instr

/-- The mnemonic of an instruction. -/
def mnemonic : Instr → Mnemonic
  | hlt => .hlt
  | ldi _ _ => .ldi
  | prn _ => .prn
  | add _ _ => .add
  | mul _ _ => .mul
  | cmp _ _ => .cmp
  | push _ => .push
  | pop _ => .pop
  | call _ => .call
  | ret => .ret
  | jmp _ => .jmp
  | jeq _ => .jeq
  | jne _ => .jne

/-- The operand bytes in the order they stand after the opcode (R51). -/
def operands : Instr → List Byte
  | hlt => []
  | ldi r imm => [r, imm]
  | prn r => [r]
  | add a b => [a, b]
  | mul a b => [a, b]
  | cmp a b => [a, b]
  | push r => [r]
  | pop r => [r]
  | call r => [r]
  | ret => []
  | jmp r => [r]
  | jeq r => [r]
  | jne r => [r]

/-- The operand bytes that name registers, in byte order (R76): all of them but LDI's immediate. -/
def registerOperands : Instr → List Byte
  | hlt => []
  | ldi r _ => [r]
  | prn r => [r]
  | add a b => [a, b]
  | mul a b => [a, b]
  | cmp a b => [a, b]
  | push r => [r]
  | pop r => [r]
  | call r => [r]
  | ret => []
  | jmp r => [r]
  | jeq r => [r]
  | jne r => [r]

/-- The length in bytes: the opcode and the operand bytes (R50). -/
def length (i : Instr) : Nat := 1 + i.operands.length

end Instr

end Sys2Proof
end

