-- ==== Sys2Proof/WellFormed.lean ====
section
/-! DEFINITION. When an instruction is well formed: every byte that names a register is 0..7 (R13, R52). An
instruction that is not well formed still decodes (R58); running it takes the RegisterIndex fault (R76). -/

namespace Sys2Proof

/-- A register operand byte is valid when it is 0..7 (R13). It is not masked to three bits. -/
def validRegister (r : Byte) : Bool := decide (r.toNat < 8)

/-- Every register operand is valid. LDI's immediate may be any byte (R53). -/
def Instr.wellFormed (i : Instr) : Bool := i.registerOperands.all validRegister

/-- The first register operand, in byte order, that names no register; none when the instruction is well formed
(R76, R177 item 4). -/
def Instr.firstBadRegister (i : Instr) : Option Byte := i.registerOperands.find? (fun r => !validRegister r)

end Sys2Proof
end

