-- ==== Sys2Proof/Machine/Operands.lean ====
section
/-! DEFINITION. The operand forms (R52, R53). There are two: a register index, checked before any effect (R76, decision D8, assumption log 7), and
LDI's immediate, which is the operand byte itself. -/

namespace Sys2Proof.Machine

/-- The register a register operand names, if it names one: the whole byte is the index, 0..7 (R13, R52). -/
def regIndex (r : Byte) : Option RegIdx := if h : r.toNat < 8 then some ⟨r.toNat, h⟩ else none

/-- Go on with the register that `r` names; a byte above 7 raises RegisterIndex with that byte (R76, R172). -/
def withReg (r : Byte) (s : State) (k : RegIdx → Result) : Result :=
  match regIndex r with
  | some i => k i
  | none => fails s (.outOfBoundsAccess .registerIndex r.toNat)

/-- Two register operands, checked in byte order (R76): a bad first one is the one reported. -/
def withRegs (a b : Byte) (s : State) (k : RegIdx → RegIdx → Result) : Result :=
  withReg a s fun i => withReg b s fun j => k i j

/-- LDI's immediate: the byte itself, unchanged (R53). -/
def immediate (imm : Byte) : Byte := imm

end Sys2Proof.Machine
end

