-- ==== Sys2Proof/Machine/Alu.lean ====
section
/-! DEFINITION. The arithmetic and compare instructions ADD, MUL, CMP (spec 43_alu.md). -/

namespace Sys2Proof.Machine

/-- The operations the arithmetic unit computes a value with (R109). -/
inductive AluOp where
  | add
  | mul
  deriving DecidableEq, Repr

/-- The exact result on the two unsigned values. -/
def aluExact : AluOp → Nat → Nat → Nat
  | .add, a, b => a + b
  | .mul, a, b => a * b

/-- The result register value: the exact result modulo 256 (R108). -/
def aluByte (op : AluOp) (a b : Byte) : Byte := BitVec.ofNat 8 (aluExact op a.toNat b.toNat)

/-- `x[a] <- (x[a] op x[b]) mod 256; pc <- pc + 3`: what ADD and MUL share (R105, R106). No flag is written. -/
def aluRegs (op : AluOp) (a b : Byte) (s : State) : Result :=
  withRegs a b s fun i j => .next ((s.writeReg i (aluByte op (s.readReg i) (s.readReg j))).advance 3)

/-- ADD a, b (R105). -/
def execAdd (a b : Byte) (s : State) : Result := aluRegs .add a b s

/-- MUL a, b (R106). -/
def execMul (a b : Byte) (s : State) : Result := aluRegs .mul a b s

/-- CMP a, b (R107): writes the flags and the pc, nothing else. -/
def execCmp (a b : Byte) (s : State) : Result :=
  withRegs a b s fun i j => .next ((s.setFlags (compareBytes (s.readReg i) (s.readReg j))).advance 3)

end Sys2Proof.Machine
end

