-- ==== Sys2Proof/Machine/Jumps.lean ====
section
/-! DEFINITION. The jump instructions JMP, JEQ, JNE (spec 46_jumps.md). -/

namespace Sys2Proof.Machine

/-- `pc <- zext_9(x[r])` when `taken`, else `pc <- pc + 2`. The register index is checked either way (R76). -/
def jumpWhen (taken : Bool) (r : Byte) (s : State) : Result :=
  withReg r s fun i => .next (if taken then s.jumpTo (s.readReg i) else s.advance 2)

/-- JMP r (R135). -/
def execJmp (r : Byte) (s : State) : Result := jumpWhen true r s

/-- JEQ r (R136). -/
def execJeq (r : Byte) (s : State) : Result := jumpWhen s.equalSet r s

/-- JNE r (R137): taken for Less, Greater and no flag set alike. -/
def execJne (r : Byte) (s : State) : Result := jumpWhen (!s.equalSet) r s

end Sys2Proof.Machine
end

