-- ==== Sys2Proof/Machine/LoadImmediate.lean ====
section
/-! DEFINITION. The register transfer instruction LDI (spec 42_load_immediate.md). -/

namespace Sys2Proof.Machine

/-- LDI r, imm8 (R100): `x[r] <- imm8; pc <- pc + 3`. -/
def execLdi (r imm : Byte) (s : State) : Result :=
  withReg r s fun i => .next ((s.writeReg i (immediate imm)).advance 3)

end Sys2Proof.Machine
end

