-- ==== Sys2Proof/Machine/Stack.lean ====
section
/-! DEFINITION. The stack instructions PUSH and POP (spec 44_stack.md). The effects are done in the order the rules
write them, each seeing the ones before it (R77, decision D9, assumption log 8). The two address faults are decisions D10 and D11 (log 9). -/

namespace Sys2Proof.Machine

/-- PUSH r (R115): the register is read after the stack pointer is lowered, so PUSH R7 stores the lowered value. -/
def execPush (r : Byte) (s : State) : Result :=
  withReg r s fun i => withPushRoom s fun s1 => .next ((s1.storeTop (s1.readReg i)).advance 2)

/-- POP r (R116): the stack pointer is incremented after the register is written, so POP R7 ends with the popped value
plus 1. The check is made on the value the stack pointer has when it is incremented. -/
def execPop (r : Byte) (s : State) : Result :=
  withReg r s fun i =>
    withPopRoom s (s.writeReg i s.top).sp (.next ((s.writeReg i s.top).raiseSp.advance 2))

end Sys2Proof.Machine
end

