-- ==== Sys2Proof/Machine/Subroutine.lean ====
section
/-! DEFINITION. The subroutine instructions CALL and RET (spec 45_call_return.md). The order of the effects is decision D9
(assumption log 8); the address faults are decisions D10 to D12 (log 9). -/

namespace Sys2Proof.Machine

/-- CALL r (R125): the return address is checked before the stack (R177); the push is done before the target register is
read, so CALL R7 jumps to the lowered stack pointer. -/
def execCall (r : Byte) (s : State) : Result :=
  withReg r s fun i => withReturnAddress s fun ra => withPushRoom s fun s1 =>
    .next ((s1.storeTop ra).jumpTo ((s1.storeTop ra).readReg i))

/-- RET (R126): pop into the pc. -/
def execRet (s : State) : Result := withPopRoom s s.sp (.next (s.raiseSp.jumpTo s.top))

end Sys2Proof.Machine
end

