-- ==== Sys2Proof/Machine/SystemIo.lean ====
section
/-! DEFINITION. The system and output instructions HLT and PRN (spec 41_system_io.md). -/

namespace Sys2Proof.Machine

/-- HLT (R90): `run <- Halted`. The pc keeps the address of the HLT byte (decision D6, assumption log 5). -/
def execHlt (s : State) : Result := .next s.halt

/-- PRN r (R91): `emit(x[r]); pc <- pc + 2`. -/
def execPrn (r : Byte) (s : State) : Result :=
  withReg r s fun i => .next ((s.emit (s.readReg i)).advance 2)

end Sys2Proof.Machine
end

