-- ==== Sys2Proof/Decode.lean ====
section
/-! DEFINITION. The opcode assignment, the decoder and the encoder (spec 30_encoding.md). Decoding is a table lookup
on the opcode byte and nothing else (R56, R59, R60); it is total on any list of bytes and says by name why it
rejects one. Every definition takes the opcode assignment as an argument, because R55 makes it a parameter. -/

namespace Sys2Proof

/-- The default assignment (R54, R55). HLT, LDI and PRN are the source's bytes. The other ten are PRESUMED: the spec
marks them "from general knowledge, not in source" (decision D3, assumption log 3). -/
def opcodeByte : OpcodeMap
  | .hlt => 0x01
  | .ldi => 0x82
  | .prn => 0x47
  | .add => 0xA0
  | .mul => 0xA2
  | .cmp => 0xA7
  | .push => 0x45
  | .pop => 0x46
  | .call => 0x50
  | .ret => 0x11
  | .jmp => 0x54
  | .jeq => 0x55
  | .jne => 0x56

/-- Why a list of bytes is no instruction. Each reason is a check of 40_engine.md, in the order R82 makes them. -/
inductive DecodeError where
  /-- There is no opcode byte (R73). -/
  | noOpcode
  /-- The opcode byte is not in the dispatch table (R57, R74). -/
  | unknownOpcode (op : Byte)
  /-- Operand byte `k` (1 or 2) of the instruction is not there (R75). -/
  | missingOperand (k : Nat)
  deriving DecidableEq, Repr

/-- The dispatch table as a partial map (R26): the mnemonic whose opcode byte this is. -/
def lookupOpcode (opc : OpcodeMap) (op : Byte) : Option Mnemonic :=
  Mnemonic.all.find? (fun m => opc m == op)

/-- The operand byte of a one-operand instruction. -/
def decodeOne (build : Byte → Instr) : List Byte → Except DecodeError (Instr × List Byte)
  | [] => .error (.missingOperand 1)
  | r :: rest => .ok (build r, rest)

/-- The two operand bytes of a two-operand instruction, in ascending order (R75). -/
def decodeTwo (build : Byte → Byte → Instr) : List Byte → Except DecodeError (Instr × List Byte)
  | [] => .error (.missingOperand 1)
  | [_] => .error (.missingOperand 2)
  | a :: b :: rest => .ok (build a b, rest)

/-- The operands of an instruction whose mnemonic is known, by the format of R51. -/
def decodeOperands (bytes : List Byte) : Mnemonic → Except DecodeError (Instr × List Byte)
  | .hlt => .ok (.hlt, bytes)
  | .ldi => decodeTwo .ldi bytes
  | .prn => decodeOne .prn bytes
  | .add => decodeTwo .add bytes
  | .mul => decodeTwo .mul bytes
  | .cmp => decodeTwo .cmp bytes
  | .push => decodeOne .push bytes
  | .pop => decodeOne .pop bytes
  | .call => decodeOne .call bytes
  | .ret => .ok (.ret, bytes)
  | .jmp => decodeOne .jmp bytes
  | .jeq => decodeOne .jeq bytes
  | .jne => decodeOne .jne bytes

/-- The decoder: the instruction at the front of a list of bytes, and the bytes after it (R50, R74). -/
def decode (opc : OpcodeMap) : List Byte → Except DecodeError (Instr × List Byte)
  | [] => .error .noOpcode
  | op :: rest =>
    match lookupOpcode opc op with
    | none => .error (.unknownOpcode op)
    | some m => decodeOperands rest m

/-- The encoder: the opcode byte, then the operand bytes at ascending addresses (R34, R50, R51). -/
def encode (opc : OpcodeMap) (i : Instr) : List Byte := opc i.mnemonic :: i.operands

/-- The three bytes of an instruction numbered as spec/opcode_table.json numbers it: bit 0 is the least significant
bit of the opcode byte, and each later byte's bits count on. Every bit at and above `nbits` is 0. -/
def tableBytes (nbits w : Nat) : List Byte :=
  let v := w % 2 ^ nbits
  [BitVec.ofNat 8 v, BitVec.ofNat 8 (v / 2 ^ 8), BitVec.ofNat 8 (v / 2 ^ 16)]

/-- The instruction the decoder reads from a word numbered as the opcode table numbers it. -/
def decodeTableWord (nbits w : Nat) : Option Instr :=
  match decode opcodeByte (tableBytes nbits w) with
  | .ok (i, _) => some i
  | .error _ => none

end Sys2Proof
end

