-- ==== Sys2Proof/Machine/Fetch.lean ====
section
/-! DEFINITION. Fetch, decode and operand fetch (R73 to R75): the bytes at the pc, the instruction they are, and the
fault when they are none. -/

namespace Sys2Proof.Machine

/-- The bytes an instruction at the pc may use: those at `pc`, `pc + 1`, `pc + 2` that are in memory. -/
def State.fetchBytes (s : State) : List Byte := s.mem.readUpTo s.pc.toNat 3

/-- The core's fault for each reason the decoder gives (R73, R74, R75, R172). -/
def causeOf (pc : PcWord) : DecodeError → Cause
  | .noOpcode => .outOfBoundsAccess .fetch pc.toNat
  | .unknownOpcode op => .unknownOpcode op
  | .missingOperand k => .outOfBoundsAccess .operandFetch ((pc.toNat : Int) + k)

/-- The instruction at the pc, or the fault that fetching it raises. All operand bytes are read before the handler
changes anything, by every instruction that has them (R75, decision D7, assumption log 7). -/
def fetchInstr (opc : OpcodeMap) (s : State) : Except Cause Instr :=
  match decode opc s.fetchBytes with
  | .ok (i, _) => .ok i
  | .error e => .error (causeOf s.pc e)

/-- Place bytes where the next instruction is fetched. -/
def State.placeAtPc (s : State) (bytes : List Byte) : State := { s with mem := s.mem.storeAt s.pc.toNat bytes }

end Sys2Proof.Machine
end

