-- ==== Sys2Proof/Machine/Step.lean ====
section
/-! DEFINITION. The step (R83) and the host's way to place an instruction. -/

namespace Sys2Proof.Machine

/-- One pass of the loop body under an opcode assignment (R72, R83). In a terminal state no step exists (R71). -/
def stepWith (opc : OpcodeMap) (s : State) : Host.Outcome State Fault Refusal :=
  match s.run with
  | .halted => .fault .alreadyHalted
  | .faulted => .fault .alreadyFaulted
  | .running =>
    match fetchInstr opc s with
    | .ok i => exec i s
    | .error c => fails s c

/-- The step under the default opcode assignment (R55). -/
def step (s : State) : Host.Outcome State Fault Refusal := stepWith opcodeByte s

/-- The state with an instruction, numbered as the opcode table numbers it, at the pc. This stands for the loader
(R150), so it only writes memory: it does not revive a machine that has stopped, and at a pc near or above the top of
memory the bytes that have no cell are not stored. -/
def State.withFetchWord (s : State) (nbits w : Nat) : State := s.placeAtPc (tableBytes nbits w)

end Sys2Proof.Machine
end

