-- ==== Sys2Proof/Machine/Boot.lean ====
section
/-! DEFINITION. Reset with a program: the load interface (R150, R151, R200). -/

namespace Sys2Proof.Machine

/-- Reset and load, for any choice of the open parameters: image byte `i` goes to `mem[i]`, and the cells at and above
the image length keep 0. An image longer than memory gives no state, because the run does not start (R151, decision D21, assumption log 15). -/
def bootWith (spReset : Byte) (flagReset : FlagState) (image : List Byte) : Option State :=
  if image.length ≤ Config.memSize then
    some { State.resetWith spReset flagReset with mem := Memory.storeAt [] 0 image }
  else none

/-- Reset and load with the default parameters. -/
def boot (image : List Byte) : Option State := bootWith Config.spReset Config.flagReset image

end Sys2Proof.Machine
end

