-- ==== Sys2Proof/Machine/Status.lean ====
section
/-! DEFINITION. What the host sees of a state: the exit status and the output (spec 50_interfaces.md). -/

namespace Sys2Proof.Machine

/-- The cause code (R175, decision D15, assumption log 10): only "zero or not" is the source's. -/
def Cause.code : Cause → Nat
  | .unknownOpcode _ => 1
  | .outOfBoundsAccess _ _ => 2
  | .unsupportedALUOperation => 3

/-- The exit status (R155): 0 when halted, the cause code when faulted, none while running. -/
def State.exitStatus (s : State) : Option Nat :=
  match s.run with
  | .running => none
  | .halted => some 0
  | .faulted => s.fault.map (fun f => f.cause.code)

/-- What the output sink shows (R25, R152): each value as its decimal numeral, one a line, in order. -/
def State.sinkLines (s : State) : List String := s.out.map (fun v => toString v.toNat)

end Sys2Proof.Machine
end

