-- ==== Sys2Proof/Safety.lean ====
section
/-! DEFINITION. The terms the claims are stated in: the invariant of the reachable states, the frames, the table of
fault checks in priority order, and rule R83's step function written a second time over plain numbers. -/

namespace Sys2Proof.Machine

/-! ## The invariant -/

/-- What every reachable state satisfies: memory is in its canonical form, the pc is a number 0..258 (R18), a fault
record is there exactly in `faulted` (R24, R181), and it holds the pc of the faulting instruction, which the pc still
has (R176, R179), and a cause that can arise (R173). -/
structure State.Inv (s : State) : Prop where
  mem_wf : s.mem.wf = true
  pc_le : s.pc.toNat ≤ 258
  fault_iff : s.fault.isSome = true ↔ s.run = .faulted
  fault_pc : ∀ f, s.fault = some f → f.fpc = s.pc ∧ f.cause ≠ .unsupportedALUOperation

/-! ## Operands and frames -/

/-- The operand byte `r` names register `i` (R13, R52). -/
def Names (r : Byte) (i : RegIdx) : Prop := r.toNat = i.val

/-- Every byte of memory reads as before. -/
def SameMemory (s t : State) : Prop := ∀ a, t.readByte a = s.readByte a

/-- Every byte of memory reads as before but the one in cell `a`. -/
def SameMemoryBut (a : Nat) (s t : State) : Prop := ∀ b, b ≠ a → t.readByte b = s.readByte b

/-- Every register is as before. -/
def SameRegs (s t : State) : Prop := ∀ k, t.readReg k = s.readReg k

/-- Every register is as before but those listed. -/
def SameRegsBut (ks : List RegIdx) (s t : State) : Prop := ∀ k, k ∉ ks → t.readReg k = s.readReg k

/-- The run state and the fault record are as before: the machine is running on, with no fault. -/
def SameControl (s t : State) : Prop := t.run = s.run ∧ t.fault = s.fault

/-- `t` is `s` after a fault of cause `c`, and nothing else has changed (R176, R178, R179). -/
def FaultTaken (s : State) (c : Cause) (t : State) : Prop :=
  t.run = .faulted ∧ t.fault = some ⟨c, s.pc⟩ ∧ t.mem = s.mem ∧ t.regs = s.regs ∧ t.pc = s.pc ∧ t.fl = s.fl ∧
    t.out = s.out

/-- The bytes stand in memory from address `a` on, all of them at addresses that exist. -/
def BytesAt (s : State) (a : Nat) (bytes : List Byte) : Prop :=
  a + bytes.length ≤ 256 ∧ ∀ k, ∀ h : k < bytes.length, s.readByte (a + k) = bytes[k]

/-- The byte fetched as an opcode at the pc of a running state is that of `m`. -/
def OpcodeAtPc (opc : OpcodeMap) (s : State) (m : Mnemonic) : Prop :=
  s.pc.toNat ≤ 255 ∧ s.readByte s.pc.toNat = opc m

/-- Everything but the registers is the same. -/
def SameButRegs (s t : State) : Prop :=
  t.mem = s.mem ∧ t.pc = s.pc ∧ t.fl = s.fl ∧ t.run = s.run ∧ t.fault = s.fault ∧ t.out = s.out

/-- Everything but the flags is the same. -/
def SameButFlags (s t : State) : Prop :=
  t.mem = s.mem ∧ t.regs = s.regs ∧ t.pc = s.pc ∧ t.run = s.run ∧ t.fault = s.fault ∧ t.out = s.out

/-! ## Which instruction reads and writes which register (R14) -/

/-- The "Reads" column of R14's table, by register number; for JEQ and JNE "(when taken)". -/
def regReads (fl : FlagState) : Instr → List Nat
  | .hlt => []
  | .ldi _ _ => []
  | .prn r => [r.toNat]
  | .add a b => [a.toNat, b.toNat]
  | .mul a b => [a.toNat, b.toNat]
  | .cmp a b => [a.toNat, b.toNat]
  | .push r => [7, r.toNat]
  | .pop _ => [7]
  | .call r => [7, r.toNat]
  | .ret => [7]
  | .jmp r => [r.toNat]
  | .jeq r => if fl = .equal then [r.toNat] else []
  | .jne r => if fl = .equal then [] else [r.toNat]

/-- The "Writes" column of R14's table, by register number. -/
def regWrites : Instr → List Nat
  | .hlt => []
  | .ldi r _ => [r.toNat]
  | .prn _ => []
  | .add a _ => [a.toNat]
  | .mul a _ => [a.toNat]
  | .cmp _ _ => []
  | .push _ => [7]
  | .pop r => [r.toNat, 7]
  | .call _ => [7]
  | .ret => [7]
  | .jmp _ => []
  | .jeq _ => []
  | .jne _ => []

/-! ## Fault priority (R172, R177) -/

/-- The checks of a step in R177's order, each with the fault it raises. `o1` and `o2` are the bytes after the opcode. -/
def faultChecks (opc : OpcodeMap) (s : State) : List (Bool × Cause) :=
  let pc := s.pc.toNat
  let op := s.readByte pc
  let o1 := s.readByte (pc + 1)
  let o2 := s.readByte (pc + 2)
  let is (m : Mnemonic) : Bool := op == opc m
  let fmt (f : Format) : Bool := Mnemonic.all.any fun m => is m && m.format == f
  [ (decide (pc > 255), .outOfBoundsAccess .fetch pc),
    (!Mnemonic.all.any is, .unknownOpcode op),
    ((fmt .r || fmt .rr || fmt .ri) && decide (pc + 1 > 255), .outOfBoundsAccess .operandFetch (pc + 1 : Nat)),
    ((fmt .rr || fmt .ri) && decide (pc + 2 > 255), .outOfBoundsAccess .operandFetch (pc + 2 : Nat)),
    ((fmt .r || fmt .rr || fmt .ri) && decide (o1.toNat > 7), .outOfBoundsAccess .registerIndex o1.toNat),
    (fmt .rr && decide (o2.toNat > 7), .outOfBoundsAccess .registerIndex o2.toNat),
    (is .call && decide (pc + 2 > 255), .outOfBoundsAccess .returnAddress (pc + 2 : Nat)),
    ((is .push || is .call) && decide (s.sp.toNat = 0), .outOfBoundsAccess .stackWrite (-1)),
    (is .pop && decide ((if o1.toNat = 7 then s.readByte s.sp.toNat else s.sp).toNat = 255),
      .outOfBoundsAccess .stackPointer 256),
    (is .ret && decide (s.sp.toNat = 255), .outOfBoundsAccess .stackPointer 256) ]

/-- The fault of the first check in a list that fails; none when all pass. -/
def firstFailing : List (Bool × Cause) → Option Cause
  | [] => none
  | (fails, c) :: rest => if fails then some c else firstFailing rest

/-- The fault a step reports: that of the first failing check (R82, R177). -/
def firstFault (opc : OpcodeMap) (s : State) : Option Cause := firstFailing (faultChecks opc s)

/-! ## Rule R83, a second time

The whole step as one block over numbers, with memory and the register file as functions: what R83's pseudocode says,
read without this model's decoder, operands, word types or memory list. -/

/-- The state of R10 as plain numbers. -/
structure View where
  mem : Nat → Nat
  x : Nat → Nat
  pc : Nat
  fl : FlagState
  run : RunState
  fault : Option (Cause × Nat)
  out : List Nat

/-- A state, seen as numbers. There is no register above 7. -/
def State.view (s : State) : View where
  mem a := (s.readByte a).toNat
  x k := if h : k < 8 then (s.readReg ⟨k, h⟩).toNat else 0
  pc := s.pc.toNat
  fl := s.fl
  run := s.run
  fault := s.fault.map fun f => (f.cause, f.fpc.toNat)
  out := s.out.map fun b => b.toNat

/-- `x[i] <- v` on numbers. -/
def setAt (f : Nat → Nat) (i v : Nat) : Nat → Nat := fun k => if k = i then v else f k

/-- `raise F(info)` of R83: "run <- Faulted; fault <- (F, pc at the start of the step, info); nothing else changes". -/
def View.raise (v : View) (c : Cause) : View := { v with run := .faulted, fault := some (c, v.pc) }

/-- `compare(a, b)` of R83. -/
def compareNat (a b : Nat) : FlagState := if a < b then .less else if a > b then .greater else .equal

/-- R83 from its "case m of" on: the handler of `m` with the operand bytes `o1` and `o2`. -/
def View.handle (v : View) (m : Mnemonic) (o1 o2 : Nat) : View :=
  match m with
  | .hlt => { v with run := .halted }
  | .prn => { v with out := v.out ++ [v.x o1], pc := v.pc + 2 }
  | .ldi => { v with x := setAt v.x o1 o2, pc := v.pc + 3 }
  | .add => { v with x := setAt v.x o1 ((v.x o1 + v.x o2) % 256), pc := v.pc + 3 }
  | .mul => { v with x := setAt v.x o1 ((v.x o1 * v.x o2) % 256), pc := v.pc + 3 }
  | .cmp => { v with fl := compareNat (v.x o1) (v.x o2), pc := v.pc + 3 }
  | .push =>
    if v.x 7 = 0 then v.raise (.outOfBoundsAccess .stackWrite (-1))
    else
      let x' := setAt v.x 7 (v.x 7 - 1)
      { v with x := x', mem := setAt v.mem (x' 7) (x' o1), pc := v.pc + 2 }
  | .pop =>
    let w := v.mem (v.x 7)
    let t := if o1 = 7 then w else v.x 7
    if t = 255 then v.raise (.outOfBoundsAccess .stackPointer 256)
    else
      let x' := setAt v.x o1 w
      { v with x := setAt x' 7 (x' 7 + 1), pc := v.pc + 2 }
  | .call =>
    if v.pc + 2 > 255 then v.raise (.outOfBoundsAccess .returnAddress (v.pc + 2 : Nat))
    else if v.x 7 = 0 then v.raise (.outOfBoundsAccess .stackWrite (-1))
    else
      let x' := setAt v.x 7 (v.x 7 - 1)
      { v with x := x', mem := setAt v.mem (x' 7) (v.pc + 2), pc := x' o1 }
  | .ret =>
    if v.x 7 = 255 then v.raise (.outOfBoundsAccess .stackPointer 256)
    else { v with x := setAt v.x 7 (v.x 7 + 1), pc := v.mem (v.x 7) }
  | .jmp => { v with pc := v.x o1 }
  | .jeq => if v.fl = .equal then { v with pc := v.x o1 } else { v with pc := v.pc + 2 }
  | .jne => if v.fl ≠ .equal then { v with pc := v.x o1 } else { v with pc := v.pc + 2 }

/-- R83 up to its "case m of", for an opcode byte that is `m`'s: the operand fetches and the register index checks. -/
def View.operands (v : View) (m : Mnemonic) : View :=
  let o1 := v.mem (v.pc + 1)
  let o2 := v.mem (v.pc + 2)
  if m.operandCount ≥ 1 ∧ v.pc + 1 > 255 then v.raise (.outOfBoundsAccess .operandFetch (v.pc + 1 : Nat))
  else if m.operandCount = 2 ∧ v.pc + 2 > 255 then v.raise (.outOfBoundsAccess .operandFetch (v.pc + 2 : Nat))
  else if m.format ≠ .n ∧ o1 > 7 then v.raise (.outOfBoundsAccess .registerIndex o1)
  else if m.format = .rr ∧ o2 > 7 then v.raise (.outOfBoundsAccess .registerIndex o2)
  else v.handle m o1 o2

/-- `step()` of R83. -/
def View.step (opc : OpcodeMap) (v : View) : View :=
  if v.pc > 255 then v.raise (.outOfBoundsAccess .fetch v.pc)
  else
    let op := v.mem v.pc
    match Mnemonic.all.find? (fun m => (opc m).toNat == op) with
    | none => v.raise (.unknownOpcode (BitVec.ofNat 8 op))
    | some m => v.operands m

end Sys2Proof.Machine
end

