-- ==== Sys2Proof/Certificates/Slice0/Obligations.lean ====
section
/-! DEFINITION. The statements for the provers. Each docstring says which rule of spec/ it formalises. A statement that
rests on a choice of the spec (a decision D<n> of 92_eei_decisions.md) or of the model (a log entry of
notes/assumptions) says so. `opc` is the parameter OPCODE of R55: where a statement quantifies over it, it holds for
every assignment of opcode bytes that R55 allows, not for the default bytes alone. Where a statement says
`FaultTaken`, what the record holds is decision D16 (log 10), and that nothing else has changed since the step began is
decision D14 (log 11). -/

open Sys2Proof Sys2Proof.Machine

/-! ## Encoding -/

/-- Under every opcode assignment R55 allows, decoding the encoding of any instruction gives that instruction and the
bytes after it (R26, R50, R51, R56). It is stated of every instruction, well formed or not: a register byte above 7 is no
illegal encoding (R58). -/
def Obligations.DecodeOfEncodeIsTheInstruction : Prop :=
  ∀ (opc : OpcodeMap), opc.Legal → ∀ (i : Instr) (rest : List Byte), decode opc (encode opc i ++ rest) = .ok (i, rest)

/-- Whatever the decoder accepts is the encoding of the instruction it answers, followed by the bytes it leaves: no bit
of an encoding is dropped, and no byte string decodes by a second route (R51, R56, R59). -/
def Obligations.DecodedBytesAreTheEncoding : Prop :=
  ∀ (opc : OpcodeMap) (bytes rest : List Byte) (i : Instr),
    decode opc bytes = .ok (i, rest) → bytes = encode opc i ++ rest

/-- When the decoder rejects, and by which name: no byte at all; a first byte that is no instruction's opcode (R57); an
operand byte that is missing, the first missing one being named (R75). -/
def Obligations.DecoderRejectsByName : Prop :=
  ∀ (opc : OpcodeMap), opc.Legal → ∀ (bytes : List Byte) (e : DecodeError),
    decode opc bytes = .error e ↔
      match e with
      | .noOpcode => bytes = []
      | .unknownOpcode op => ∃ rest, bytes = op :: rest ∧ ∀ m, opc m ≠ op
      | .missingOperand k => ∃ m rest, bytes = opc m :: rest ∧ rest.length < m.operandCount ∧ k = rest.length + 1

/-- The default assignment is one R55 allows, and its thirteen bytes are the ones R57 lists. Ten of them are PRESUMED
(the spec's "from general knowledge, not in source", decision D3, log 3). -/
def Obligations.DefaultOpcodesAreLegal : Prop :=
  opcodeByte.Legal ∧ ∀ b : Byte, (∃ m, opcodeByte m = b) ↔
    b ∈ ([0x01, 0x11, 0x45, 0x46, 0x47, 0x50, 0x54, 0x55, 0x56, 0x82, 0xA0, 0xA2, 0xA7] : List Byte)

/-- Words written out from the encodings decode to their instructions: the source's program of 30_encoding.md R54, and a
word of every other family under the default bytes (PRESUMED, decision D3, log 3). -/
def Obligations.WrittenWordsDecode : Prop :=
  decode opcodeByte [0b10000010, 0b00000000, 0b00001000] = .ok (.ldi 0 8, []) ∧
  decode opcodeByte [0b01000111, 0b00000000] = .ok (.prn 0, []) ∧
  decode opcodeByte [0b00000001] = .ok (.hlt, []) ∧
  decode opcodeByte [0b10100000, 0b00000000, 0b00000001] = .ok (.add 0 1, []) ∧
  decode opcodeByte [0b10100111, 0b00000010, 0b00000011] = .ok (.cmp 2 3, []) ∧
  decode opcodeByte [0b01000101, 0b00000001] = .ok (.push 1, []) ∧
  decode opcodeByte [0b01010000, 0b00000001] = .ok (.call 1, []) ∧
  decode opcodeByte [0b00010001] = .ok (.ret, []) ∧
  decode opcodeByte [0b01010100, 0b00000010] = .ok (.jmp 2, []) ∧
  decode opcodeByte [0b00000000] = .error (.unknownOpcode 0)

/-- R60: "Decoding depends on nothing but memory and `pc`". What is fetched and decoded, and the fault when nothing can
be, is the same in any two states with the same pc and the same bytes there, whatever their registers, flags, run state,
fault record, output and other memory. -/
def Obligations.DecodingDependsOnMemoryAndPcOnly : Prop :=
  ∀ (opc : OpcodeMap) (s t : State), t.pc = s.pc →
    (∀ k, k < 3 → t.readByte (s.pc.toNat + k) = s.readByte (s.pc.toNat + k)) →
    fetchInstr opc t = fetchInstr opc s

/-! ## Memory -/

/-- R36: a read returns the last value written to the cell, and a write changes that cell only. -/
def Obligations.ReadAfterWrite : Prop :=
  ∀ (s : State) (a : Nat) (v : Byte),
    (s.writeByte a v).readByte a = v ∧ ∀ b, b ≠ a → (s.writeByte a v).readByte b = s.readByte b

/-- The canonical form is canonical: two memories in it that read the same everywhere are the same data. The form is the
model's own; what it represents is R30's 256 cells. -/
def Obligations.CanonicalMemoriesAreEqualData : Prop :=
  ∀ m n : Memory, m.wf = true → n.wf = true → (∀ a, a < 256 → m.read a = n.read a) → m = n

/-! ## Reset and load -/

/-- R150, for every choice of the open parameters: image byte `i` goes to `mem[i]`, cells at and above the image length
keep 0, the length may be 0 to 256, and with the empty image the first step faults with UnknownOpcode(0x00) at `pc = 0`.
The last clause is said for every opcode assignment that leaves 0x00 unknown, as R57's does. -/
def Obligations.ImageIsLoadedFromAddressZero : Prop :=
  (∀ (sp : Byte) (fl : FlagState) (image : List Byte), image.length ≤ 256 →
    ∃ s, bootWith sp fl image = some s ∧
      (∀ a, ∀ h : a < image.length, s.readByte a = image[a]) ∧ (∀ a, image.length ≤ a → s.readByte a = 0)) ∧
  (∀ (opc : OpcodeMap), (∀ m, opc m ≠ 0x00) → ∀ (sp : Byte) (fl : FlagState), ∃ s t, bootWith sp fl [] = some s ∧
    (∀ a, s.readByte a = 0) ∧ s.pc = 0 ∧ stepWith opc s = .next t ∧ FaultTaken s (.unknownOpcode 0x00) t)

/-- R29 and R200, for every choice of the open parameters SP_RESET and FLAG_RESET (R202) and every image: what reset and
load leave in the registers, the pc, the flags, the run state, the fault record and the output. The default values that
`State.reset` takes for the two parameters are the spec's choices D1 and D4 (logs 1 and 2). -/
def Obligations.ResetLeavesTheseValues : Prop :=
  (∀ (sp : Byte) (fl : FlagState) (image : List Byte) (s : State), bootWith sp fl image = some s →
    (∀ k : RegIdx, k ≠ 7 → s.readReg k = 0) ∧ s.sp = sp ∧ s.pc = 0 ∧ s.fl = fl ∧ s.run = .running ∧ s.fault = none ∧
      s.out = []) ∧
  boot [] = some State.reset ∧ State.reset.sp = 0xF4 ∧ State.reset.fl = .none

/-- R151 (decision D21): an image longer than memory gives no state of the core. -/
def Obligations.OversizeImageDoesNotStart : Prop :=
  ∀ (sp : Byte) (fl : FlagState) (image : List Byte), 256 < image.length → bootWith sp fl image = none

/-! ## The step -/

/-- A step runs the decoded instruction: in a running state, when the bytes at the pc decode to `i`, the step is exactly
`exec i`. The model adds nothing around it: "The handler owns responsibility for advancing PC ... the engine does not
auto-advance" (R16, R77, R83). -/
def Obligations.StepRunsTheDecodedInstruction : Prop :=
  ∀ (s : State) (i : Instr) (rest : List Byte), s.run = .running → decode opcodeByte s.fetchBytes = .ok (i, rest) →
    step s = exec i s

/-- The same from the encoding side, under every opcode assignment R55 allows: if the encoding of `i` stands in memory at
the pc, all of it at addresses that exist, a running machine's step is `exec i` (R72 to R77). -/
def Obligations.EncodedInstructionAtPcRuns : Prop :=
  ∀ (opc : OpcodeMap), opc.Legal → ∀ (s : State) (i : Instr), s.run = .running →
    BytesAt s s.pc.toNat (encode opc i) → stepWith opc s = exec i s

/-- R73 (decision D2): a running machine whose pc is above 255 takes the Fetch fault, with the pc as index. -/
def Obligations.FetchAboveMemoryFaults : Prop :=
  ∀ (opc : OpcodeMap) (s : State), s.run = .running → 255 < s.pc.toNat →
    ∃ t, stepWith opc s = .next t ∧ FaultTaken s (.outOfBoundsAccess .fetch s.pc.toNat) t

/-- R171: a byte fetched as an opcode that is not in the dispatch table raises UnknownOpcode in the decode stage, with the
opcode byte and the pc; execution ends there; and no handler ever raises it. That nothing else changes is decision D14
(log 11). -/
def Obligations.UnknownOpcodeIsFatal : Prop :=
  (∀ (opc : OpcodeMap) (s : State), s.run = .running → s.pc.toNat ≤ 255 → (∀ m, opc m ≠ s.readByte s.pc.toNat) →
    ∃ t, stepWith opc s = .next t ∧ FaultTaken s (.unknownOpcode (s.readByte s.pc.toNat)) t ∧
      ∀ u, stepWith opc t ≠ .next u) ∧
  (∀ (i : Instr) (s t : State) (op : Byte) (pc : PcWord), exec i s = .next t →
    t.fault = some ⟨.unknownOpcode op, pc⟩ → s.fault = some ⟨.unknownOpcode op, pc⟩)

/-- R75 (decision D7): an instruction with an operand byte above address 255 takes the OperandFetch fault with index 256,
whatever the operand would have been, by an untaken JEQ or JNE too. -/
def Obligations.OperandAboveMemoryFaults : Prop :=
  ∀ (opc : OpcodeMap), opc.Legal → ∀ (s : State) (m : Mnemonic), s.run = .running → OpcodeAtPc opc s m →
    255 < s.pc.toNat + m.operandCount →
    ∃ t, stepWith opc s = .next t ∧ FaultTaken s (.outOfBoundsAccess .operandFetch 256) t

/-- R76 (decision D8), for every instruction with a register operand: a register byte above 7 takes the RegisterIndex
fault with that byte, the first one in byte order, whether or not the handler would go on to use it. -/
def Obligations.BadRegisterOperandFaults : Prop :=
  ∀ (i : Instr) (s : State) (r : Byte), i.firstBadRegister = some r →
    ∃ t, exec i s = .next t ∧ FaultTaken s (.outOfBoundsAccess .registerIndex r.toNat) t

/-- R71, R83 (decision D20, log 4): a next state is defined in every running state, and in no other: while running the
step never stops and never refuses, for any memory, registers, pc and flags. -/
def Obligations.StepDefinedExactlyWhileRunning : Prop :=
  ∀ (opc : OpcodeMap) (s : State), (∃ t, stepWith opc s = .next t) ↔ s.run = .running

/-- R78: only HLT reaches `halted`, it always does, and the loop ends there. -/
def Obligations.OnlyHltHalts : Prop :=
  ∀ (opc : OpcodeMap), opc.Legal → ∀ s t : State, stepWith opc s = .next t →
    (t.run = .halted ↔ OpcodeAtPc opc s .hlt) ∧ (t.run = .halted → ∀ u, stepWith opc t ≠ .next u)

/-- R178, R179 (decisions D14 and D16, logs 11 and 10): a step that ends in `faulted` has changed nothing since its start
but the run state and the record, a fault of the handler's own checks included, and the loop terminates. R178 gives what
taking the fault does; that the faulting instruction has no effect of its own is R179 and R79, the spec's decision D14,
and so the choice of log 11. What the record holds is D16. -/
def Obligations.FaultingStepChangesNothingElse : Prop :=
  ∀ (opc : OpcodeMap) (s t : State), stepWith opc s = .next t → t.run = .faulted →
    (∃ c, FaultTaken s c t) ∧ ∀ u, stepWith opc t ≠ .next u

/-- R173: "no state and no instruction raises this fault": a step either leaves the fault record as it was or writes one
whose cause is not UnsupportedALUOperation. -/
def Obligations.UnsupportedAluOperationUnreachable : Prop :=
  ∀ (opc : OpcodeMap) (s t : State), stepWith opc s = .next t →
    t.fault = s.fault ∨ ∃ f, t.fault = some f ∧ f.cause ≠ .unsupportedALUOperation

/-- R172, R177, R82 (decisions D2, D7, D8, D10 to D14 and D16; logs 6, 7, 9, 10 and 11): the fault a running machine's step
reports is that of the first failing check of R177's list, and the step faults only if one of them fails. The fetch check
is D2, the operand and register checks are D7 and D8, the stack and return address checks D10 to D12, their order is D13,
that nothing else changes is D14, and what the record holds is D16. -/
def Obligations.FaultIsTheFirstFailingCheck : Prop :=
  ∀ (opc : OpcodeMap), opc.Legal → ∀ s : State, s.run = .running → ∃ t, stepWith opc s = .next t ∧
    match firstFault opc s with
    | some c => FaultTaken s c t
    | none => t.run ≠ .faulted ∧ t.fault = s.fault

/-- R83, whole: seen as plain numbers, a running machine's step is R83's `step()`, written out a second time in
Safety.lean without this model's decoder, operands, words or memory list. R83 carries the spec's decisions D2 (log 6), D5
(the unsigned compare, log 12), D6 to D14 (logs 5, 7 to 11), D16 (what the record holds, log 10) and D17 (the unsigned
byte emitted, log 13). -/
def Obligations.StepIsRuleR83 : Prop :=
  ∀ (opc : OpcodeMap) (s : State), s.run = .running → ∃ t, stepWith opc s = .next t ∧ t.view = View.step opc s.view

/-! ## The instructions: result, frame and completion

Each says that `exec` answers a next state, for every state and operands that meet the hypotheses, and what every part of
that state is. `s.pc.toNat ≤ 258` is R18's range of the pc, an invariant (`InvariantKeptByEveryStep`). -/

/-- HLT (R90): the run state, and nothing else, not even the pc (decision D6, log 5). -/
def Obligations.HltHaltsInPlace : Prop :=
  ∀ s : State, ∃ t, exec .hlt s = .next t ∧ t.run = .halted ∧ t.pc = s.pc ∧ t.fl = s.fl ∧ t.fault = s.fault ∧
    t.out = s.out ∧ SameRegs s t ∧ SameMemory s t

/-- PRN (R91). -/
def Obligations.PrnEmitsTheRegister : Prop :=
  ∀ (s : State) (r : Byte) (i : RegIdx), Names r i → s.pc.toNat ≤ 258 →
    ∃ t, exec (.prn r) s = .next t ∧ t.out = s.out ++ [s.readReg i] ∧ t.pc.toNat = s.pc.toNat + 2 ∧ t.fl = s.fl ∧
      SameControl s t ∧ SameRegs s t ∧ SameMemory s t

/-- LDI (R100): every register, register 7 among them, and every byte. -/
def Obligations.LdiLoadsTheImmediate : Prop :=
  ∀ (s : State) (r imm : Byte) (i : RegIdx), Names r i → s.pc.toNat ≤ 258 →
    ∃ t, exec (.ldi r imm) s = .next t ∧ t.readReg i = imm ∧ SameRegsBut [i] s t ∧ t.pc.toNat = s.pc.toNat + 3 ∧
      t.fl = s.fl ∧ t.out = s.out ∧ SameControl s t ∧ SameMemory s t

/-- ADD (R105, R108): modulo 256, with no flag. -/
def Obligations.AddIsModulo256 : Prop :=
  ∀ (s : State) (a b : Byte) (i j : RegIdx), Names a i → Names b j → s.pc.toNat ≤ 258 →
    ∃ t, exec (.add a b) s = .next t ∧ (t.readReg i).toNat = ((s.readReg i).toNat + (s.readReg j).toNat) % 256 ∧
      SameRegsBut [i] s t ∧ t.pc.toNat = s.pc.toNat + 3 ∧ t.fl = s.fl ∧ t.out = s.out ∧ SameControl s t ∧ SameMemory s t

/-- MUL (R106, R108): modulo 256, with no flag; the high half is stored nowhere. -/
def Obligations.MulIsModulo256 : Prop :=
  ∀ (s : State) (a b : Byte) (i j : RegIdx), Names a i → Names b j → s.pc.toNat ≤ 258 →
    ∃ t, exec (.mul a b) s = .next t ∧ (t.readReg i).toNat = ((s.readReg i).toNat * (s.readReg j).toNat) % 256 ∧
      SameRegsBut [i] s t ∧ t.pc.toNat = s.pc.toNat + 3 ∧ t.fl = s.fl ∧ t.out = s.out ∧ SameControl s t ∧ SameMemory s t

/-- CMP (R107): exactly one of Less, Greater, Equal, by an unsigned comparison with regA on the left (decision D5). -/
def Obligations.CmpWritesOneFlag : Prop :=
  ∀ (s : State) (a b : Byte) (i j : RegIdx), Names a i → Names b j → s.pc.toNat ≤ 258 →
    ∃ t, exec (.cmp a b) s = .next t ∧
      (t.fl = .equal ↔ s.readReg i = s.readReg j) ∧
      (t.fl = .less ↔ (s.readReg i).toNat < (s.readReg j).toNat) ∧
      (t.fl = .greater ↔ (s.readReg j).toNat < (s.readReg i).toNat) ∧
      t.pc.toNat = s.pc.toNat + 3 ∧ t.out = s.out ∧ SameControl s t ∧ SameRegs s t ∧ SameMemory s t

/-- PUSH (R115): the cell below the stack pointer receives the register; for PUSH R7, which sees the lowered stack
pointer, that is the lowered value (decision D9). The address stored to is the meaning's own, `s.sp - 1`. -/
def Obligations.PushStoresBelowTheStackPointer : Prop :=
  ∀ (s : State) (r : Byte) (i : RegIdx), Names r i → s.sp ≠ 0 → s.pc.toNat ≤ 258 →
    ∃ t, exec (.push r) s = .next t ∧ t.sp = s.sp - 1 ∧ t.sp.toNat + 1 = s.sp.toNat ∧
      t.readByte (s.sp - 1).toNat = (if i = 7 then s.sp - 1 else s.readReg i) ∧ SameMemoryBut (s.sp - 1).toNat s t ∧
      SameRegsBut [7] s t ∧ t.pc.toNat = s.pc.toNat + 2 ∧ t.fl = s.fl ∧ t.out = s.out ∧ SameControl s t

/-- POP into a register other than 7 (R116): the register receives the top byte and the stack pointer goes up by one; the
cell keeps its byte. -/
def Obligations.PopLoadsTheTopOfTheStack : Prop :=
  ∀ (s : State) (r : Byte) (i : RegIdx), Names r i → i ≠ 7 → s.sp ≠ 255 → s.pc.toNat ≤ 258 →
    ∃ t, exec (.pop r) s = .next t ∧ t.readReg i = s.readByte s.sp.toNat ∧ t.sp.toNat = s.sp.toNat + 1 ∧
      SameRegsBut [i, 7] s t ∧ SameMemory s t ∧ t.pc.toNat = s.pc.toNat + 2 ∧ t.fl = s.fl ∧ t.out = s.out ∧
      SameControl s t

/-- POP R7 (R116, decision D9): the stack pointer ends as the popped byte plus 1, whatever it was before, 255 included. -/
def Obligations.PopIntoTheStackPointer : Prop :=
  ∀ s : State, s.readByte s.sp.toNat ≠ 255 → s.pc.toNat ≤ 258 →
    ∃ t, exec (.pop 7) s = .next t ∧ t.sp.toNat = (s.readByte s.sp.toNat).toNat + 1 ∧ SameRegsBut [7] s t ∧
      SameMemory s t ∧ t.pc.toNat = s.pc.toNat + 2 ∧ t.fl = s.fl ∧ t.out = s.out ∧ SameControl s t

/-- CALL (R125): the return address `pc + 2` is pushed and control goes to the register's value; for CALL R7, which sees
the lowered stack pointer, to that value (decision D9). -/
def Obligations.CallPushesTheReturnAddress : Prop :=
  ∀ (s : State) (r : Byte) (i : RegIdx), Names r i → s.pc.toNat + 2 ≤ 255 → s.sp ≠ 0 →
    ∃ t, exec (.call r) s = .next t ∧ t.sp = s.sp - 1 ∧ t.sp.toNat + 1 = s.sp.toNat ∧
      (t.readByte (s.sp - 1).toNat).toNat = s.pc.toNat + 2 ∧ SameMemoryBut (s.sp - 1).toNat s t ∧
      t.pc.toNat = (if i = 7 then s.sp - 1 else s.readReg i).toNat ∧ SameRegsBut [7] s t ∧ t.fl = s.fl ∧
      t.out = s.out ∧ SameControl s t

/-- RET (R126): the top byte becomes the pc and the stack pointer goes up by one. -/
def Obligations.RetPopsThePc : Prop :=
  ∀ s : State, s.sp ≠ 255 →
    ∃ t, exec .ret s = .next t ∧ t.pc.toNat = (s.readByte s.sp.toNat).toNat ∧ t.sp.toNat = s.sp.toNat + 1 ∧
      SameRegsBut [7] s t ∧ SameMemory s t ∧ t.fl = s.fl ∧ t.out = s.out ∧ SameControl s t

/-- JMP (R135). -/
def Obligations.JmpGoesToTheRegister : Prop :=
  ∀ (s : State) (r : Byte) (i : RegIdx), Names r i →
    ∃ t, exec (.jmp r) s = .next t ∧ t.pc.toNat = (s.readReg i).toNat ∧ SameRegs s t ∧ SameMemory s t ∧ t.fl = s.fl ∧
      t.out = s.out ∧ SameControl s t

/-- JEQ (R136): taken exactly when the Equal flag is set. -/
def Obligations.JeqJumpsWhenEqual : Prop :=
  ∀ (s : State) (r : Byte) (i : RegIdx), Names r i → s.pc.toNat ≤ 258 →
    ∃ t, exec (.jeq r) s = .next t ∧
      t.pc.toNat = (if s.fl = .equal then (s.readReg i).toNat else s.pc.toNat + 2) ∧ SameRegs s t ∧ SameMemory s t ∧
      t.fl = s.fl ∧ t.out = s.out ∧ SameControl s t

/-- JNE (R137): taken for Less, for Greater and for no flag set. -/
def Obligations.JneJumpsWhenNotEqual : Prop :=
  ∀ (s : State) (r : Byte) (i : RegIdx), Names r i → s.pc.toNat ≤ 258 →
    ∃ t, exec (.jne r) s = .next t ∧
      t.pc.toNat = (if s.fl = .equal then s.pc.toNat + 2 else (s.readReg i).toNat) ∧ SameRegs s t ∧ SameMemory s t ∧
      t.fl = s.fl ∧ t.out = s.out ∧ SameControl s t

/-! ## Where the stack instructions fault -/

/-- PUSH and CALL with `x[7] = 0` (R115, R125, decision D10): StackWrite with index -1, and nothing changes. CALL is at a
pc whose return address fits. -/
def Obligations.PushWithNoRoomFaults : Prop :=
  ∀ (s : State) (r : Byte) (i : RegIdx), Names r i → s.sp = 0 →
    (∃ t, exec (.push r) s = .next t ∧ FaultTaken s (.outOfBoundsAccess .stackWrite (-1)) t) ∧
    (s.pc.toNat + 2 ≤ 255 →
      ∃ t, exec (.call r) s = .next t ∧ FaultTaken s (.outOfBoundsAccess .stackWrite (-1)) t)

/-- POP and RET that would take the stack pointer to 256 (R116, R126, decision D11): StackPointer with index 256, and
nothing changes. For POP R7 it is the popped byte that must not be 255. -/
def Obligations.PopPastTheTopFaults : Prop :=
  (∀ (s : State) (r : Byte) (i : RegIdx), Names r i →
    (if i = 7 then s.readByte s.sp.toNat else s.sp) = 255 →
    ∃ t, exec (.pop r) s = .next t ∧ FaultTaken s (.outOfBoundsAccess .stackPointer 256) t) ∧
  (∀ s : State, s.sp = 255 → ∃ t, exec .ret s = .next t ∧ FaultTaken s (.outOfBoundsAccess .stackPointer 256) t)

/-- CALL whose return address is no memory index (R125, decision D12): ReturnAddress, before the stack is looked at. -/
def Obligations.CallAtTheTopOfMemoryFaults : Prop :=
  ∀ (s : State) (r : Byte) (i : RegIdx), Names r i → 255 < s.pc.toNat + 2 →
    ∃ t, exec (.call r) s = .next t ∧ FaultTaken s (.outOfBoundsAccess .returnAddress (s.pc.toNat + 2 : Nat)) t

/-! ## Two instructions from the bytes in memory to the next state -/

/-- PRN from the bytes in memory (R91): the opcode 0x47 and its operand, the three faults in their order, and the effect,
down to the line the sink shows. These rest on the spec's decisions: the fetch fault on D2 (log 6), the operand and
register faults on D7 and D8 (log 7), what the record holds on D16 (log 10), that nothing else changes on D14 (log 11),
and the unsigned byte and the text of the sink's line on D17 (log 13, R25 and R152). -/
def Obligations.PrnRuleFromBytes : Prop :=
  (∀ s : State, s.run = .running → 255 < s.pc.toNat →
    ∃ t, step s = .next t ∧ FaultTaken s (.outOfBoundsAccess .fetch s.pc.toNat) t) ∧
  (∀ s : State, s.run = .running → s.pc.toNat ≤ 255 → s.readByte s.pc.toNat = 0b01000111 →
    ∃ t, step s = .next t ∧
      (s.pc.toNat = 255 → FaultTaken s (.outOfBoundsAccess .operandFetch 256) t) ∧
      (s.pc.toNat ≤ 254 → 7 < (s.readByte (s.pc.toNat + 1)).toNat →
        FaultTaken s (.outOfBoundsAccess .registerIndex (s.readByte (s.pc.toNat + 1)).toNat) t) ∧
      (s.pc.toNat ≤ 254 → ∀ i : RegIdx, Names (s.readByte (s.pc.toNat + 1)) i →
        t.out = s.out ++ [s.readReg i] ∧ t.sinkLines = s.sinkLines ++ [toString (s.readReg i).toNat] ∧
          t.pc.toNat = s.pc.toNat + 2 ∧ t.fl = s.fl ∧ SameControl s t ∧ SameRegs s t ∧ SameMemory s t))

/-- LDI from the bytes in memory (R100): the opcode 0x82 and its operands, the faults in their order, the effect, and the
property the rule quotes: LDI r,v then PRN r puts out v. The fetch fault rests on decision D2 (log 6), the operand and
register faults on D7 and D8 (log 7), what the record holds on D16 (log 10), that nothing else changes on D14 (log 11),
and the byte put out, seen as unsigned, on D17 (log 13). -/
def Obligations.LdiRuleFromBytes : Prop :=
  (∀ s : State, s.run = .running → 255 < s.pc.toNat →
    ∃ t, step s = .next t ∧ FaultTaken s (.outOfBoundsAccess .fetch s.pc.toNat) t) ∧
  (∀ s : State, s.run = .running → s.pc.toNat ≤ 255 → s.readByte s.pc.toNat = 0b10000010 →
    ∃ t, step s = .next t ∧
      (254 ≤ s.pc.toNat → FaultTaken s (.outOfBoundsAccess .operandFetch 256) t) ∧
      (s.pc.toNat ≤ 253 → 7 < (s.readByte (s.pc.toNat + 1)).toNat →
        FaultTaken s (.outOfBoundsAccess .registerIndex (s.readByte (s.pc.toNat + 1)).toNat) t) ∧
      (s.pc.toNat ≤ 253 → ∀ i : RegIdx, Names (s.readByte (s.pc.toNat + 1)) i →
        t.readReg i = s.readByte (s.pc.toNat + 2) ∧ SameRegsBut [i] s t ∧ t.pc.toNat = s.pc.toNat + 3 ∧ t.fl = s.fl ∧
          t.out = s.out ∧ SameControl s t ∧ SameMemory s t)) ∧
  (∀ (s : State) (r v : Byte) (i : RegIdx), s.run = .running → Names r i →
    BytesAt s s.pc.toNat [0b10000010, r, v, 0b01000111, r] →
    ∃ t u, step s = .next t ∧ step t = .next u ∧ u.out = s.out ++ [v])

/-! ## Rules about the whole machine -/

/-- R14: which instruction reads and writes which register is given, completely, by its table. A register outside the
"Writes" column keeps its value; a register outside the "Reads" column can hold anything without any difference to the
rest of the next state, and a register that is written without being read ends the same. -/
def Obligations.RegistersReadAndWrittenAreTheTable : Prop :=
  ∀ (i : Instr) (s t : State), exec i s = .next t → ∀ k : RegIdx,
    (k.val ∉ regWrites i → t.readReg k = s.readReg k) ∧
    (k.val ∉ regReads s.fl i → ∀ v : Byte, ∃ u, exec i (s.writeReg k v) = .next u ∧ SameButRegs t u ∧
      SameRegsBut [k] t u ∧ (k.val ∈ regWrites i → t.run ≠ .faulted → u.readReg k = t.readReg k))

/-- R21: the flags are "set only by the compare operation, read only by conditional-jump operations", which "test only
whether it is `Equal`". A step that changes `fl` is a CMP; with other flags every instruction but JEQ and JNE does the
same to everything else; and JEQ and JNE do the same for any two flag states that agree on Equal. -/
def Obligations.FlagsWrittenByCmpReadByJumps : Prop :=
  (∀ (opc : OpcodeMap), opc.Legal → ∀ s t : State, stepWith opc s = .next t → t.fl ≠ s.fl → OpcodeAtPc opc s .cmp) ∧
  (∀ (i : Instr) (s t : State) (f : FlagState), exec i s = .next t →
    (i.mnemonic ≠ .jeq ∧ i.mnemonic ≠ .jne) ∨ (f = .equal ↔ s.fl = .equal) →
    ∃ u, exec i (s.setFlags f) = .next u ∧ SameButFlags t u)

/-- R32, its list of writers: only PUSH and CALL change memory, and only the cell below the stack pointer. -/
def Obligations.OnlyPushAndCallWriteMemory : Prop :=
  ∀ (opc : OpcodeMap), opc.Legal → ∀ (s t : State) (a : Nat), stepWith opc s = .next t → t.readByte a ≠ s.readByte a →
    (OpcodeAtPc opc s .push ∨ OpcodeAtPc opc s .call) ∧ a + 1 = s.sp.toNat

/-- R152, R153: no instruction other than PRN produces output, and PRN appends exactly its register's value. -/
def Obligations.OnlyPrnProducesOutput : Prop :=
  ∀ (opc : OpcodeMap), opc.Legal → ∀ s t : State, stepWith opc s = .next t →
    t.out = s.out ∨ (OpcodeAtPc opc s .prn ∧
      ∃ i : RegIdx, Names (s.readByte (s.pc.toNat + 1)) i ∧ t.out = s.out ++ [s.readReg i])

/-- The invariant of Safety.lean is kept by every step, from every state that has it, under any opcode assignment: memory
stays canonical, the pc stays in 0..258 (R18), the fault record is there exactly when faulted (R24), holds the pc of the
faulting instruction (R176) and never UnsupportedALUOperation (R173). The pc's range is decision D2. -/
def Obligations.InvariantKeptByEveryStep : Prop :=
  ∀ (opc : OpcodeMap) (s t : State), s.Inv → stepWith opc s = .next t → t.Inv

/-- The invariant holds after reset and load, for every image and every choice of the open parameters; so it holds of
`State.reset`. -/
def Obligations.InvariantHoldsAfterReset : Prop :=
  State.reset.Inv ∧ ∀ (sp : Byte) (fl : FlagState) (image : List Byte) (s : State), bootWith sp fl image = some s → s.Inv

/-- Along any run of any length from any state with the invariant, the invariant holds, output is only appended to (R25,
R153: "Values emitted before a fault or a halt stay emitted"), and what was running is never revived (R23). -/
def Obligations.RunsKeepTheInvariantAndTheOutput : Prop :=
  ∀ (k : Nat) (s t : State), s.Inv → core.run k s = .next t → t.Inv ∧ s.out <+: t.out ∧ (0 < k → s.run = .running)

/-! ## Two instructions together -/

/-- R118: PUSH r1 then POP r2, from the bytes in memory, with the conditions the rule gives: neither register is 7, the
stack pointer is not 0, and the cell written is not one of the POP's two bytes. `x[r2]` ends as `x[r1]` was and the stack
pointer as it was. The conditions are the spec's own derivation. -/
def Obligations.PushThenPopPreservesTheValue : Prop :=
  ∀ (opc : OpcodeMap), opc.Legal → ∀ (s : State) (r1 r2 : Byte) (i j : RegIdx), s.run = .running →
    BytesAt s s.pc.toNat (encode opc (.push r1) ++ encode opc (.pop r2)) → Names r1 i → Names r2 j → i ≠ 7 → j ≠ 7 →
    s.sp ≠ 0 → s.sp.toNat - 1 ≠ s.pc.toNat + 2 → s.sp.toNat - 1 ≠ s.pc.toNat + 3 →
    ∃ t u, stepWith opc s = .next t ∧ stepWith opc t = .next u ∧ u.readReg j = s.readReg i ∧ u.sp = s.sp ∧
      u.pc.toNat = s.pc.toNat + 4 ∧ SameRegsBut [j] s u ∧ u.fl = s.fl ∧ u.out = s.out ∧ SameControl s u

/-- R127: after CALL, a RET in any later state whose stack pointer is back where the CALL left it and whose saved byte is
intact returns to the byte after the CALL's two bytes, restores the stack pointer, and leaves the other registers as the
subroutine left them (90_conflicts.md C5). -/
def Obligations.RetReturnsBehindTheCall : Prop :=
  ∀ (s t u : State) (r : Byte) (i : RegIdx), Names r i → s.pc.toNat + 2 ≤ 255 → s.sp ≠ 0 → exec (.call r) s = .next t →
    u.sp = t.sp → u.readByte u.sp.toNat = t.readByte t.sp.toNat →
    ∃ v, exec .ret u = .next v ∧ v.pc.toNat = s.pc.toNat + 2 ∧ v.sp = s.sp ∧ SameRegsBut [7] u v ∧ SameMemory u v ∧
      v.fl = u.fl ∧ v.out = u.out ∧ SameControl u v

/-- R138: after CMP, when regA equals regB, JEQ jumps and JNE falls through; otherwise JEQ falls through and JNE jumps.
The jump's own register may be one of the two compared. -/
def Obligations.CompareThenJump : Prop :=
  ∀ (s t : State) (a b r : Byte) (i j k : RegIdx), Names a i → Names b j → Names r k → s.pc.toNat ≤ 255 →
    exec (.cmp a b) s = .next t → ∃ u v, exec (.jeq r) t = .next u ∧ exec (.jne r) t = .next v ∧
      (s.readReg i = s.readReg j → u.pc.toNat = (s.readReg k).toNat ∧ v.pc.toNat = s.pc.toNat + 5) ∧
      (s.readReg i ≠ s.readReg j → u.pc.toNat = s.pc.toNat + 5 ∧ v.pc.toNat = (s.readReg k).toNat)

/-- R40: a byte that PUSH stores is the byte the very next fetch sees: with HLT's opcode pushed onto the cell that follows
the PUSH, the machine halts there at its second step. That the cell is the one below the stack pointer is PUSH's rule
R115. That the halted pc is still the address of the HLT byte, `pc + 2`, is R90's decision D6, the choice of log 5. -/
def Obligations.PushedByteIsTheNextOpcode : Prop :=
  ∀ (opc : OpcodeMap), opc.Legal → ∀ (s : State) (r : Byte) (i : RegIdx), s.run = .running →
    BytesAt s s.pc.toNat (encode opc (.push r)) → Names r i → i ≠ 7 → s.readReg i = opc .hlt →
    s.sp.toNat = s.pc.toNat + 3 →
    ∃ t u, stepWith opc s = .next t ∧ stepWith opc t = .next u ∧ u.run = .halted ∧ u.pc.toNat = s.pc.toNat + 2

/-- R72, R135: a JMP to its own address is an endless loop that nothing detects: any number of steps is taken, and the
state is the same after each. -/
def Obligations.JumpToItselfNeverEnds : Prop :=
  ∀ (s : State) (r : Byte) (i : RegIdx), s.run = .running → BytesAt s s.pc.toNat (encode opcodeByte (.jmp r)) →
    Names r i → (s.readReg i).toNat = s.pc.toNat → ∀ k, core.run k s = .next s

/-! ## What the host sees -/

/-- R155, R175, with the codes of decision D15: no exit status while running, 0 when halted, and in every faulted state
with the invariant the cause code, which is not 0 and is 1 for UnknownOpcode and 2 for OutOfBoundsAccess. -/
def Obligations.ExitStatusIsZeroExactlyOnHalt : Prop :=
  ∀ s : State, s.Inv →
    (s.exitStatus = none ↔ s.run = .running) ∧ (s.exitStatus = some 0 ↔ s.run = .halted) ∧
    (s.exitStatus = some 1 ↔ ∃ op pc, s.fault = some ⟨.unknownOpcode op, pc⟩) ∧
    (s.exitStatus = some 2 ↔ ∃ kind n pc, s.fault = some ⟨.outOfBoundsAccess kind n, pc⟩)
end

