-- ==== Sys2Proof/Laws/Decode.lean ====
section
/-! SUPPORT. What the table lookup can answer, and what decoding the operands can answer. -/

namespace Sys2Proof

theorem Mnemonic.mem_all (m : Mnemonic) : m ∈ Mnemonic.all := by cases m <;> decide

/-- No instruction has more than two operand bytes (R50). -/
theorem Mnemonic.operandCount_le (m : Mnemonic) : m.operandCount ≤ 2 := by cases m <;> decide

/-- The lookup answers a mnemonic only if the byte is its opcode. -/
theorem opcode_of_lookup {opc : OpcodeMap} {op : Byte} {m : Mnemonic} (h : lookupOpcode opc op = some m) : opc m = op := by
  simpa using List.find?_some h

/-- The lookup answers none exactly when the byte is no mnemonic's opcode (R57). -/
theorem lookup_eq_none {opc : OpcodeMap} {op : Byte} : lookupOpcode opc op = none ↔ ∀ m, opc m ≠ op := by
  simp only [lookupOpcode, List.find?_eq_none, beq_iff_eq]
  exact ⟨fun h m => h m m.mem_all, fun h m _ => h m⟩

/-- Under an injective assignment the lookup of a mnemonic's opcode answers the mnemonic (R26, R55). -/
theorem lookup_opcode {opc : OpcodeMap} (inj : ∀ m n, opc m = opc n → m = n) (m : Mnemonic) :
    lookupOpcode opc (opc m) = some m := by
  cases h : lookupOpcode opc (opc m) with
  | none => exact absurd rfl (lookup_eq_none.mp h m)
  | some n => rw [inj _ _ (opcode_of_lookup h)]

/-- The default assignment is one that R55 allows. -/
theorem opcodeByte_legal : opcodeByte.Legal :=
  ⟨fun m n h => by cases m <;> cases n <;> first | rfl | exact absurd h (by decide), rfl, rfl, rfl⟩

/-- Operand bytes that are all there decode to the instruction they are of. -/
theorem decodeOperands_operands (i : Instr) (rest : List Byte) :
    decodeOperands (i.operands ++ rest) i.mnemonic = .ok (i, rest) := by
  cases i <;> rfl

theorem decodeOne_ok {f : Byte → Instr} {bs rest : List Byte} {i : Instr} (h : decodeOne f bs = .ok (i, rest)) :
    ∃ r, i = f r ∧ bs = r :: rest := by
  match bs, h with
  | r :: bs, h => cases h; exact ⟨r, rfl, rfl⟩

theorem decodeTwo_ok {f : Byte → Byte → Instr} {bs rest : List Byte} {i : Instr} (h : decodeTwo f bs = .ok (i, rest)) :
    ∃ a b, i = f a b ∧ bs = a :: b :: rest := by
  match bs, h with
  | a :: b :: bs, h => cases h; exact ⟨a, b, rfl, rfl⟩

/-- What decoding operands answers: an instruction of that mnemonic, whose operand bytes are the ones read. -/
theorem decodeOperands_ok {m : Mnemonic} {bs rest : List Byte} {i : Instr} (h : decodeOperands bs m = .ok (i, rest)) :
    i.mnemonic = m ∧ bs = i.operands ++ rest := by
  cases m <;>
    first
    | (obtain ⟨r, rfl, rfl⟩ := decodeOne_ok h; exact ⟨rfl, rfl⟩)
    | (obtain ⟨a, b, rfl, rfl⟩ := decodeTwo_ok h; exact ⟨rfl, rfl⟩)
    | (cases h; exact ⟨rfl, rfl⟩)

/-- Decoding operands fails only for a byte that is missing: the first, or the second after one that is there (R75). -/
theorem decodeOperands_error {m : Mnemonic} {bs : List Byte} {e : DecodeError} (h : decodeOperands bs m = .error e) :
    bs.length < m.operandCount ∧ e = .missingOperand (bs.length + 1) := by
  match bs, h with
  | [], h => cases m <;> cases h <;> exact ⟨by decide, rfl⟩
  | [_], h => cases m <;> cases h <;> exact ⟨Nat.lt_succ_self 1, rfl⟩
  | _ :: _ :: _, h => cases m <;> cases h

/-- The number of operand bytes is the format's (R51). -/
theorem Instr.operands_length (i : Instr) : i.operands.length = i.mnemonic.operandCount := by cases i <;> rfl

end Sys2Proof
end

