-- ==== Sys2Proof/Laws/Memory.lean ====
section
/-! SUPPORT. The laws of memory: a read after a write, the bytes placed at ascending addresses, and the canonical form,
which every operation keeps. -/

namespace Sys2Proof.Machine

@[simp] theorem Memory.read_nil (a : Nat) : Memory.read [] a = 0 := rfl

theorem Memory.read_cons (k : Nat) (v : Byte) (m : Memory) (a : Nat) :
    Memory.read ((k, v) :: m) a = if k = a then v else Memory.read m a := rfl

theorem Memory.read_unlist (m : Memory) (a b : Nat) : (m.unlist a).read b = if b = a then 0 else m.read b := by
  induction m with
  | nil => simp [unlist, read, unlistedByte]
  | cons c m ih =>
    obtain ⟨k, w⟩ := c
    unfold unlist at ih ⊢
    simp only [List.filter_cons, decide_eq_true_eq]
    split
    · rename_i h
      simp only [read_cons, ih]
      split <;> split <;> simp_all
    · rename_i h
      simp only [ih, read_cons]
      split <;> simp_all
      omega

/-- Listing a cell that is not listed yet makes it read as the value and changes no other. -/
theorem Memory.read_list (m : Memory) (a : Nat) (v : Byte) (h : ∀ c ∈ m, c.1 ≠ a) (b : Nat) :
    (m.list a v).read b = if b = a then v else m.read b := by
  induction m with
  | nil => simp [list, read_cons, eq_comm]
  | cons c m ih =>
    obtain ⟨k, w⟩ := c
    have hk : k ≠ a := h (k, w) (by simp)
    have ih := ih fun c hc => h c (by simp [hc])
    simp only [list]
    split
    · simp only [read_cons, eq_comm]
    · simp only [read_cons, ih]
      split <;> split <;> simp_all

theorem Memory.not_mem_unlist (m : Memory) (a : Nat) : ∀ c ∈ m.unlist a, c.1 ≠ a := by
  intro c hc
  simpa [unlist] using (List.mem_filter.mp hc).2

/-- R36: "Writing a cell changes that cell only", and a read returns the last value written. -/
@[simp] theorem Memory.read_write (m : Memory) (a : Nat) (v : Byte) (b : Nat) :
    (m.write a v).read b = if b = a then v else m.read b := by
  unfold write
  split
  · rename_i h
    simp [read_unlist, h, unlistedByte]
  · rw [read_list _ _ _ (not_mem_unlist m a), read_unlist]
    split <;> simp_all

/-! ### The canonical form -/

theorem Memory.wfFrom_mono {lo lo' : Nat} {m : Memory} (hle : lo ≤ lo') (h : m.wfFrom lo' = true) :
    m.wfFrom lo = true := by
  cases m with
  | nil => rfl
  | cons c m =>
    simp only [wfFrom, Bool.and_eq_true, decide_eq_true_eq] at h ⊢
    exact ⟨⟨⟨by omega, h.1.1.2⟩, h.1.2⟩, h.2⟩

theorem Memory.wfFrom_unlist {lo : Nat} {m : Memory} (a : Nat) (h : m.wfFrom lo = true) :
    (m.unlist a).wfFrom lo = true := by
  induction m generalizing lo with
  | nil => rfl
  | cons c m ih =>
    obtain ⟨k, w⟩ := c
    simp only [wfFrom, Bool.and_eq_true, decide_eq_true_eq] at h
    unfold unlist at ih ⊢
    simp only [List.filter_cons, decide_eq_true_eq]
    split
    · simp only [wfFrom, Bool.and_eq_true, decide_eq_true_eq]
      exact ⟨h.1, ih h.2⟩
    · exact wfFrom_mono (by omega) (ih h.2)

theorem Memory.wfFrom_list {lo : Nat} {m : Memory} {a : Nat} {v : Byte} (hlo : lo ≤ a) (ha : a < 256)
    (hv : v ≠ unlistedByte) (hm : ∀ c ∈ m, c.1 ≠ a) (h : m.wfFrom lo = true) : (m.list a v).wfFrom lo = true := by
  induction m generalizing lo with
  | nil => simp [list, wfFrom, hlo, ha, hv]
  | cons c m ih =>
    obtain ⟨k, w⟩ := c
    have hk : k ≠ a := hm (k, w) (by simp)
    simp only [wfFrom, Bool.and_eq_true, decide_eq_true_eq] at h
    simp only [list]
    split
    · simp only [wfFrom, Bool.and_eq_true, decide_eq_true_eq]
      exact ⟨⟨⟨hlo, ha⟩, hv⟩, ⟨⟨by omega, h.1.1.2⟩, h.1.2⟩, h.2⟩
    · simp only [wfFrom, Bool.and_eq_true, decide_eq_true_eq]
      exact ⟨h.1, ih (by omega) (fun c hc => hm c (by simp [hc])) h.2⟩

/-- A write at an address that exists keeps the canonical form. -/
theorem Memory.wf_write {m : Memory} {a : Nat} (v : Byte) (ha : a < 256) (h : m.wf = true) :
    (m.write a v).wf = true := by
  unfold write wf
  split
  · exact wfFrom_unlist a h
  · rename_i hv
    exact wfFrom_list (Nat.zero_le a) ha hv (not_mem_unlist m a) (wfFrom_unlist a h)

/-- Placing bytes keeps the canonical form: a byte with no cell is not placed. -/
theorem Memory.wf_storeAt {m : Memory} (a : Nat) (bs : List Byte) (h : m.wf = true) : (m.storeAt a bs).wf = true := by
  induction bs generalizing m a with
  | nil => exact h
  | cons b bs ih =>
    simp only [storeAt]
    split
    · exact ih (a + 1) (wf_write b ‹_› h)
    · exact h

@[simp] theorem Memory.wf_nil : Memory.wf [] = true := rfl

/-- In canonical form a cell below the first possible address reads as 0. -/
theorem Memory.read_below {lo a : Nat} {m : Memory} (h : m.wfFrom lo = true) (ha : a < lo) : m.read a = 0 := by
  induction m generalizing lo with
  | nil => rfl
  | cons c m ih =>
    obtain ⟨k, w⟩ := c
    simp only [wfFrom, Bool.and_eq_true, decide_eq_true_eq] at h
    rw [read_cons, if_neg (by omega)]
    exact ih h.2 (by omega)

/-! ### Bytes at ascending addresses -/

/-- What a cell reads as after bytes are placed from `a` on, when they all have cells. -/
theorem Memory.read_storeAt (m : Memory) (a : Nat) (bs : List Byte) (h : a + bs.length ≤ 256) (b : Nat) :
    (m.storeAt a bs).read b = if hb : a ≤ b ∧ b - a < bs.length then bs[b - a] else m.read b := by
  induction bs generalizing m a with
  | nil => simp [storeAt]
  | cons v bs ih =>
    simp only [List.length_cons] at h ⊢
    rw [storeAt, if_pos (by show a < 256; omega), ih _ _ (by omega)]
    by_cases hb : b = a
    · subst hb
      simp
    · by_cases hge : a + 1 ≤ b ∧ b - (a + 1) < bs.length
      · have he : b - a = b - (a + 1) + 1 := by omega
        simp only [dif_pos hge, dif_pos (show a ≤ b ∧ b - a < bs.length + 1 by omega)]
        simp only [he, List.getElem_cons_succ]
      · simp only [dif_neg hge, dif_neg (show ¬(a ≤ b ∧ b - a < bs.length + 1) by omega), read_write, if_neg hb]

/-- The bytes read at the pc are as many as memory has there, at most three. -/
theorem Memory.readUpTo_three (m : Memory) (a : Nat) :
    m.readUpTo a 3 =
      if a ≤ 253 then [m.read a, m.read (a + 1), m.read (a + 2)]
      else if a = 254 then [m.read a, m.read (a + 1)]
      else if a = 255 then [m.read a]
      else [] := by
  simp only [readUpTo, Config.memSize]
  split_ifs <;> first | rfl | omega

end Sys2Proof.Machine
end

