-- ==== Sys2Proof/Laws/State.lean ====
section
/-! SUPPORT. One lemma per field of State and per update, so that no proof unfolds a record update. -/

namespace Sys2Proof.Machine

variable (s : State)

/-! ### Writing a register -/

@[simp] theorem State.writeReg_mem (i : RegIdx) (v : Byte) : (s.writeReg i v).mem = s.mem := rfl
@[simp] theorem State.writeReg_regs (i : RegIdx) (v : Byte) : (s.writeReg i v).regs = s.regs.set i v := rfl
@[simp] theorem State.writeReg_pc (i : RegIdx) (v : Byte) : (s.writeReg i v).pc = s.pc := rfl
@[simp] theorem State.writeReg_fl (i : RegIdx) (v : Byte) : (s.writeReg i v).fl = s.fl := rfl
@[simp] theorem State.writeReg_run (i : RegIdx) (v : Byte) : (s.writeReg i v).run = s.run := rfl
@[simp] theorem State.writeReg_fault (i : RegIdx) (v : Byte) : (s.writeReg i v).fault = s.fault := rfl
@[simp] theorem State.writeReg_out (i : RegIdx) (v : Byte) : (s.writeReg i v).out = s.out := rfl
@[simp] theorem State.writeReg_readByte (i : RegIdx) (v : Byte) (b : Nat) : (s.writeReg i v).readByte b = s.readByte b := rfl

/-! ### Writing the stack pointer -/

@[simp] theorem State.setSp_mem (v : Byte) : (s.setSp v).mem = s.mem := rfl
@[simp] theorem State.setSp_regs (v : Byte) : (s.setSp v).regs = s.regs.set Config.spIndex v := rfl
@[simp] theorem State.setSp_pc (v : Byte) : (s.setSp v).pc = s.pc := rfl
@[simp] theorem State.setSp_fl (v : Byte) : (s.setSp v).fl = s.fl := rfl
@[simp] theorem State.setSp_run (v : Byte) : (s.setSp v).run = s.run := rfl
@[simp] theorem State.setSp_fault (v : Byte) : (s.setSp v).fault = s.fault := rfl
@[simp] theorem State.setSp_out (v : Byte) : (s.setSp v).out = s.out := rfl
@[simp] theorem State.setSp_readByte (v : Byte) (b : Nat) : (s.setSp v).readByte b = s.readByte b := rfl

/-! ### Raising the stack pointer -/

@[simp] theorem State.raiseSp_mem : s.raiseSp.mem = s.mem := rfl
@[simp] theorem State.raiseSp_regs : s.raiseSp.regs = s.regs.set Config.spIndex (s.sp + 1) := rfl
@[simp] theorem State.raiseSp_pc : s.raiseSp.pc = s.pc := rfl
@[simp] theorem State.raiseSp_fl : s.raiseSp.fl = s.fl := rfl
@[simp] theorem State.raiseSp_run : s.raiseSp.run = s.run := rfl
@[simp] theorem State.raiseSp_fault : s.raiseSp.fault = s.fault := rfl
@[simp] theorem State.raiseSp_out : s.raiseSp.out = s.out := rfl
@[simp] theorem State.raiseSp_readByte (b : Nat) : s.raiseSp.readByte b = s.readByte b := rfl

/-! ### Moving the pc on -/

@[simp] theorem State.advance_mem (n : Nat) : (s.advance n).mem = s.mem := rfl
@[simp] theorem State.advance_regs (n : Nat) : (s.advance n).regs = s.regs := rfl
@[simp] theorem State.advance_pc (n : Nat) : (s.advance n).pc = s.pc + BitVec.ofNat 9 n := rfl
@[simp] theorem State.advance_fl (n : Nat) : (s.advance n).fl = s.fl := rfl
@[simp] theorem State.advance_run (n : Nat) : (s.advance n).run = s.run := rfl
@[simp] theorem State.advance_fault (n : Nat) : (s.advance n).fault = s.fault := rfl
@[simp] theorem State.advance_out (n : Nat) : (s.advance n).out = s.out := rfl
@[simp] theorem State.advance_readReg (n : Nat) (k : RegIdx) : (s.advance n).readReg k = s.readReg k := rfl
@[simp] theorem State.advance_sp (n : Nat) : (s.advance n).sp = s.sp := rfl
@[simp] theorem State.advance_readByte (n : Nat) (b : Nat) : (s.advance n).readByte b = s.readByte b := rfl

/-! ### Jumping -/

@[simp] theorem State.jumpTo_mem (v : Byte) : (s.jumpTo v).mem = s.mem := rfl
@[simp] theorem State.jumpTo_regs (v : Byte) : (s.jumpTo v).regs = s.regs := rfl
@[simp] theorem State.jumpTo_pc (v : Byte) : (s.jumpTo v).pc = zext9 v := rfl
@[simp] theorem State.jumpTo_fl (v : Byte) : (s.jumpTo v).fl = s.fl := rfl
@[simp] theorem State.jumpTo_run (v : Byte) : (s.jumpTo v).run = s.run := rfl
@[simp] theorem State.jumpTo_fault (v : Byte) : (s.jumpTo v).fault = s.fault := rfl
@[simp] theorem State.jumpTo_out (v : Byte) : (s.jumpTo v).out = s.out := rfl
@[simp] theorem State.jumpTo_readReg (v : Byte) (k : RegIdx) : (s.jumpTo v).readReg k = s.readReg k := rfl
@[simp] theorem State.jumpTo_sp (v : Byte) : (s.jumpTo v).sp = s.sp := rfl
@[simp] theorem State.jumpTo_readByte (v : Byte) (b : Nat) : (s.jumpTo v).readByte b = s.readByte b := rfl

/-! ### Writing the flags -/

@[simp] theorem State.setFlags_mem (f : FlagState) : (s.setFlags f).mem = s.mem := rfl
@[simp] theorem State.setFlags_regs (f : FlagState) : (s.setFlags f).regs = s.regs := rfl
@[simp] theorem State.setFlags_pc (f : FlagState) : (s.setFlags f).pc = s.pc := rfl
@[simp] theorem State.setFlags_fl (f : FlagState) : (s.setFlags f).fl = f := rfl
@[simp] theorem State.setFlags_run (f : FlagState) : (s.setFlags f).run = s.run := rfl
@[simp] theorem State.setFlags_fault (f : FlagState) : (s.setFlags f).fault = s.fault := rfl
@[simp] theorem State.setFlags_out (f : FlagState) : (s.setFlags f).out = s.out := rfl
@[simp] theorem State.setFlags_readReg (f : FlagState) (k : RegIdx) : (s.setFlags f).readReg k = s.readReg k := rfl
@[simp] theorem State.setFlags_sp (f : FlagState) : (s.setFlags f).sp = s.sp := rfl
@[simp] theorem State.setFlags_readByte (f : FlagState) (b : Nat) : (s.setFlags f).readByte b = s.readByte b := rfl

/-! ### Emitting a value -/

@[simp] theorem State.emit_mem (v : Byte) : (s.emit v).mem = s.mem := rfl
@[simp] theorem State.emit_regs (v : Byte) : (s.emit v).regs = s.regs := rfl
@[simp] theorem State.emit_pc (v : Byte) : (s.emit v).pc = s.pc := rfl
@[simp] theorem State.emit_fl (v : Byte) : (s.emit v).fl = s.fl := rfl
@[simp] theorem State.emit_run (v : Byte) : (s.emit v).run = s.run := rfl
@[simp] theorem State.emit_fault (v : Byte) : (s.emit v).fault = s.fault := rfl
@[simp] theorem State.emit_out (v : Byte) : (s.emit v).out = s.out ++ [v] := rfl
@[simp] theorem State.emit_readReg (v : Byte) (k : RegIdx) : (s.emit v).readReg k = s.readReg k := rfl
@[simp] theorem State.emit_sp (v : Byte) : (s.emit v).sp = s.sp := rfl
@[simp] theorem State.emit_readByte (v : Byte) (b : Nat) : (s.emit v).readByte b = s.readByte b := rfl

/-! ### Halting -/

@[simp] theorem State.halt_mem : s.halt.mem = s.mem := rfl
@[simp] theorem State.halt_regs : s.halt.regs = s.regs := rfl
@[simp] theorem State.halt_pc : s.halt.pc = s.pc := rfl
@[simp] theorem State.halt_fl : s.halt.fl = s.fl := rfl
@[simp] theorem State.halt_run : s.halt.run = .halted := rfl
@[simp] theorem State.halt_fault : s.halt.fault = s.fault := rfl
@[simp] theorem State.halt_out : s.halt.out = s.out := rfl
@[simp] theorem State.halt_readReg (k : RegIdx) : s.halt.readReg k = s.readReg k := rfl
@[simp] theorem State.halt_sp : s.halt.sp = s.sp := rfl
@[simp] theorem State.halt_readByte (b : Nat) : s.halt.readByte b = s.readByte b := rfl

/-! ### Storing a byte -/

@[simp] theorem State.writeByte_mem (a : Nat) (v : Byte) : (s.writeByte a v).mem = s.mem.write a v := rfl
@[simp] theorem State.writeByte_regs (a : Nat) (v : Byte) : (s.writeByte a v).regs = s.regs := rfl
@[simp] theorem State.writeByte_pc (a : Nat) (v : Byte) : (s.writeByte a v).pc = s.pc := rfl
@[simp] theorem State.writeByte_fl (a : Nat) (v : Byte) : (s.writeByte a v).fl = s.fl := rfl
@[simp] theorem State.writeByte_run (a : Nat) (v : Byte) : (s.writeByte a v).run = s.run := rfl
@[simp] theorem State.writeByte_fault (a : Nat) (v : Byte) : (s.writeByte a v).fault = s.fault := rfl
@[simp] theorem State.writeByte_out (a : Nat) (v : Byte) : (s.writeByte a v).out = s.out := rfl
@[simp] theorem State.writeByte_readReg (a : Nat) (v : Byte) (k : RegIdx) : (s.writeByte a v).readReg k = s.readReg k := rfl
@[simp] theorem State.writeByte_sp (a : Nat) (v : Byte) : (s.writeByte a v).sp = s.sp := rfl

/-! ### Storing on top of the stack -/

@[simp] theorem State.storeTop_mem (v : Byte) : (s.storeTop v).mem = s.mem.write s.sp.toNat v := rfl
@[simp] theorem State.storeTop_regs (v : Byte) : (s.storeTop v).regs = s.regs := rfl
@[simp] theorem State.storeTop_pc (v : Byte) : (s.storeTop v).pc = s.pc := rfl
@[simp] theorem State.storeTop_fl (v : Byte) : (s.storeTop v).fl = s.fl := rfl
@[simp] theorem State.storeTop_run (v : Byte) : (s.storeTop v).run = s.run := rfl
@[simp] theorem State.storeTop_fault (v : Byte) : (s.storeTop v).fault = s.fault := rfl
@[simp] theorem State.storeTop_out (v : Byte) : (s.storeTop v).out = s.out := rfl
@[simp] theorem State.storeTop_readReg (v : Byte) (k : RegIdx) : (s.storeTop v).readReg k = s.readReg k := rfl
@[simp] theorem State.storeTop_sp (v : Byte) : (s.storeTop v).sp = s.sp := rfl

/-! ### Taking a fault -/

@[simp] theorem State.raise_mem (c : Cause) : (s.raise c).mem = s.mem := rfl
@[simp] theorem State.raise_regs (c : Cause) : (s.raise c).regs = s.regs := rfl
@[simp] theorem State.raise_pc (c : Cause) : (s.raise c).pc = s.pc := rfl
@[simp] theorem State.raise_fl (c : Cause) : (s.raise c).fl = s.fl := rfl
@[simp] theorem State.raise_run (c : Cause) : (s.raise c).run = .faulted := rfl
@[simp] theorem State.raise_fault (c : Cause) : (s.raise c).fault = some ⟨c, s.pc⟩ := rfl
@[simp] theorem State.raise_out (c : Cause) : (s.raise c).out = s.out := rfl
@[simp] theorem State.raise_readReg (c : Cause) (k : RegIdx) : (s.raise c).readReg k = s.readReg k := rfl
@[simp] theorem State.raise_sp (c : Cause) : (s.raise c).sp = s.sp := rfl
@[simp] theorem State.raise_readByte (c : Cause) (b : Nat) : (s.raise c).readByte b = s.readByte b := rfl

/-! ### Placing bytes at the pc -/

@[simp] theorem State.placeAtPc_mem (bs : List Byte) : (s.placeAtPc bs).mem = s.mem.storeAt s.pc.toNat bs := rfl
@[simp] theorem State.placeAtPc_regs (bs : List Byte) : (s.placeAtPc bs).regs = s.regs := rfl
@[simp] theorem State.placeAtPc_pc (bs : List Byte) : (s.placeAtPc bs).pc = s.pc := rfl
@[simp] theorem State.placeAtPc_fl (bs : List Byte) : (s.placeAtPc bs).fl = s.fl := rfl
@[simp] theorem State.placeAtPc_run (bs : List Byte) : (s.placeAtPc bs).run = s.run := rfl
@[simp] theorem State.placeAtPc_fault (bs : List Byte) : (s.placeAtPc bs).fault = s.fault := rfl
@[simp] theorem State.placeAtPc_out (bs : List Byte) : (s.placeAtPc bs).out = s.out := rfl
@[simp] theorem State.placeAtPc_readReg (bs : List Byte) (k : RegIdx) : (s.placeAtPc bs).readReg k = s.readReg k := rfl
@[simp] theorem State.placeAtPc_sp (bs : List Byte) : (s.placeAtPc bs).sp = s.sp := rfl

/-! ### What a register write reads as -/

/-- R36's law for registers: the register written reads as the value, every other as before. -/
@[simp] theorem State.writeReg_readReg (i k : RegIdx) (v : Byte) :
    (s.writeReg i v).readReg k = if k = i then v else s.readReg k := by
  simp only [readReg, writeReg, Fin.getElem_fin, Vector.getElem_set, Fin.ext_iff]
  split <;> split <;> simp_all

@[simp] theorem State.setSp_readReg (k : RegIdx) (v : Byte) :
    (s.setSp v).readReg k = if k = Config.spIndex then v else s.readReg k := s.writeReg_readReg _ _ _

@[simp] theorem State.raiseSp_readReg (k : RegIdx) :
    s.raiseSp.readReg k = if k = Config.spIndex then s.sp + 1 else s.readReg k := s.writeReg_readReg _ _ _

@[simp] theorem State.writeReg_sp (i : RegIdx) (v : Byte) :
    (s.writeReg i v).sp = if i = Config.spIndex then v else s.sp := by
  simp only [sp, writeReg_readReg, eq_comm]

@[simp] theorem State.setSp_sp (v : Byte) : (s.setSp v).sp = v := by simp [sp]

@[simp] theorem State.raiseSp_sp : s.raiseSp.sp = s.sp + 1 := by simp [sp]

/-- Two states with the same fields are the same state. -/
theorem State.ext_fields {s t : State} (mem : s.mem = t.mem) (regs : s.regs = t.regs) (pc : s.pc = t.pc)
    (fl : s.fl = t.fl) (run : s.run = t.run) (fault : s.fault = t.fault) (out : s.out = t.out) : s = t := by
  cases s
  cases t
  simp_all

/-- Register files that read the same are the same. -/
theorem State.regs_eq_of_readReg {s t : State} (h : ∀ k, t.readReg k = s.readReg k) : t.regs = s.regs :=
  Vector.ext fun i hi => h ⟨i, hi⟩

end Sys2Proof.Machine
end

