-- ==== Sys2Proof/Laws/Ops.lean ====
section
/-! SUPPORT. One lemma per shared operation of a meaning that says everything it can answer, and the two branches of each
check as equations. -/

namespace Sys2Proof.Machine

variable {s t : State}

/-! ### Operands -/

theorem regIndex_valid {r : Byte} (h : r.toNat < 8) : regIndex r = some ⟨r.toNat, h⟩ := dif_pos h

theorem regIndex_invalid {r : Byte} (h : 8 ≤ r.toNat) : regIndex r = none := dif_neg (by omega)

theorem withReg_valid {r : Byte} (h : r.toNat < 8) (s : State) (k : RegIdx → Result) :
    withReg r s k = k ⟨r.toNat, h⟩ := by simp only [withReg, regIndex_valid h]

theorem withReg_invalid {r : Byte} (h : 8 ≤ r.toNat) (s : State) (k : RegIdx → Result) :
    withReg r s k = fails s (.outOfBoundsAccess .registerIndex r.toNat) := by simp only [withReg, regIndex_invalid h]

/-- Everything a register operand check can do. -/
theorem withReg_cases (r : Byte) (s : State) (k : RegIdx → Result) :
    (∃ h : r.toNat < 8, withReg r s k = k ⟨r.toNat, h⟩) ∨
      (8 ≤ r.toNat ∧ withReg r s k = fails s (.outOfBoundsAccess .registerIndex r.toNat)) := by
  by_cases h : r.toNat < 8
  · exact .inl ⟨h, withReg_valid h s k⟩
  · exact .inr ⟨by omega, withReg_invalid (by omega) s k⟩

/-! ### The stack checks -/

theorem withPushRoom_room (h : s.sp ≠ 0) (k : State → Result) : withPushRoom s k = k (s.setSp (s.sp - 1)) := if_neg h

theorem withPushRoom_full (h : s.sp = 0) (k : State → Result) :
    withPushRoom s k = fails s (.outOfBoundsAccess .stackWrite (-1)) := if_pos h

theorem withPopRoom_room {v : Byte} (h : v ≠ 255) (k : Result) : withPopRoom s v k = k := if_neg h

theorem withPopRoom_full {v : Byte} (h : v = 255) (k : Result) :
    withPopRoom s v k = fails s (.outOfBoundsAccess .stackPointer 256) := if_pos h

theorem withReturnAddress_fits (h : s.pc.toNat + 2 ≤ 255) (k : Byte → Result) :
    withReturnAddress s k = k (BitVec.ofNat 8 (s.pc.toNat + 2)) := if_neg (by omega)

theorem withReturnAddress_over (h : 255 < s.pc.toNat + 2) (k : Byte → Result) :
    withReturnAddress s k = fails s (.outOfBoundsAccess .returnAddress ((s.pc.toNat : Int) + 2)) := if_pos h

/-! ### The arithmetic (R108) -/

@[simp] theorem aluByte_add (a b : Byte) : aluByte .add a b = a + b := by
  apply BitVec.eq_of_toNat_eq
  simp [aluByte, aluExact]

@[simp] theorem aluByte_mul (a b : Byte) : aluByte .mul a b = a * b := by
  apply BitVec.eq_of_toNat_eq
  simp [aluByte, aluExact]

/-! ### The stack, read back -/

@[simp] theorem State.writeByte_readByte (a : Nat) (v : Byte) (b : Nat) :
    (s.writeByte a v).readByte b = if b = a then v else s.readByte b := Memory.read_write _ _ _ _

@[simp] theorem State.storeTop_readByte (v : Byte) (b : Nat) :
    (s.storeTop v).readByte b = if b = s.sp.toNat then v else s.readByte b := Memory.read_write _ _ _ _

@[simp] theorem State.storeTop_top (v : Byte) : (s.storeTop v).top = v := by simp [top]

/-- A lowered stack pointer, as a number: no wrap, since 0 was refused. (`1#8` is the form simp leaves 1 in.) -/
theorem toNat_sub_one {v : Byte} (h : v ≠ 0) : (v - 1#8).toNat = v.toNat - 1 := by
  have : v.toNat ≠ 0 := fun h0 => h (BitVec.eq_of_toNat_eq h0)
  have := v.isLt
  rw [BitVec.toNat_sub, show (1#8).toNat = 1 from rfl]
  omega

/-- A raised stack pointer, as a number: no wrap, since 255 was refused. -/
theorem toNat_add_one {v : Byte} (h : v ≠ 255) : (v + 1#8).toNat = v.toNat + 1 := by
  have : v.toNat ≠ 255 := fun h0 => h (BitVec.eq_of_toNat_eq h0)
  have := v.isLt
  rw [BitVec.toNat_add, show (1#8).toNat = 1 from rfl]
  omega

/-- The pc after an advance, as a number: held, not wrapped, for every pc R18 allows. -/
theorem State.advance_pc_toNat (h : s.pc.toNat ≤ 258) {n : Nat} (hn : n ≤ 3) :
    (s.advance n).pc.toNat = s.pc.toNat + n := by
  simp only [advance_pc, BitVec.toNat_add, BitVec.toNat_ofNat]
  omega

end Sys2Proof.Machine
end

