-- ==== Sys2Proof/Laws/Exec.lean ====
section
/-! SUPPORT. Per instruction, the equation of its meaning when its checks pass; and, over all instructions, that a meaning
always answers a next state. -/

namespace Sys2Proof.Machine

variable {s t : State} {r a b : Byte}

/-! ### The equations of the meanings when the checks pass -/

theorem exec_hlt (s : State) : exec .hlt s = .next s.halt := rfl

theorem exec_ldi (h : r.toNat < 8) (imm : Byte) (s : State) :
    exec (.ldi r imm) s = .next ((s.writeReg ⟨r.toNat, h⟩ imm).advance 3) := withReg_valid h s _

theorem exec_prn (h : r.toNat < 8) (s : State) :
    exec (.prn r) s = .next ((s.emit (s.readReg ⟨r.toNat, h⟩)).advance 2) := withReg_valid h s _

theorem withRegs_valid (ha : a.toNat < 8) (hb : b.toNat < 8) (s : State) (k : RegIdx → RegIdx → Result) :
    withRegs a b s k = k ⟨a.toNat, ha⟩ ⟨b.toNat, hb⟩ := by
  simp only [withRegs, withReg_valid ha, withReg_valid hb]

theorem exec_add (ha : a.toNat < 8) (hb : b.toNat < 8) (s : State) :
    exec (.add a b) s =
      .next ((s.writeReg ⟨a.toNat, ha⟩ (s.readReg ⟨a.toNat, ha⟩ + s.readReg ⟨b.toNat, hb⟩)).advance 3) := by
  simp only [exec, execAdd, aluRegs, withRegs_valid ha hb, aluByte_add]

theorem exec_mul (ha : a.toNat < 8) (hb : b.toNat < 8) (s : State) :
    exec (.mul a b) s =
      .next ((s.writeReg ⟨a.toNat, ha⟩ (s.readReg ⟨a.toNat, ha⟩ * s.readReg ⟨b.toNat, hb⟩)).advance 3) := by
  simp only [exec, execMul, aluRegs, withRegs_valid ha hb, aluByte_mul]

theorem exec_cmp (ha : a.toNat < 8) (hb : b.toNat < 8) (s : State) :
    exec (.cmp a b) s =
      .next ((s.setFlags (compareBytes (s.readReg ⟨a.toNat, ha⟩) (s.readReg ⟨b.toNat, hb⟩))).advance 3) := by
  simp only [exec, execCmp, withRegs_valid ha hb]

theorem exec_push (h : r.toNat < 8) (hs : s.sp ≠ 0) :
    exec (.push r) s =
      .next (((s.setSp (s.sp - 1)).storeTop ((s.setSp (s.sp - 1)).readReg ⟨r.toNat, h⟩)).advance 2) := by
  simp only [exec, execPush, withReg_valid h, withPushRoom_room hs]

theorem exec_pop (h : r.toNat < 8) (hs : (s.writeReg ⟨r.toNat, h⟩ s.top).sp ≠ 255) :
    exec (.pop r) s = .next ((s.writeReg ⟨r.toNat, h⟩ s.top).raiseSp.advance 2) := by
  simp only [exec, execPop, withReg_valid h, withPopRoom_room hs]

theorem exec_call (h : r.toNat < 8) (hpc : s.pc.toNat + 2 ≤ 255) (hs : s.sp ≠ 0) :
    exec (.call r) s =
      .next (((s.setSp (s.sp - 1)).storeTop (BitVec.ofNat 8 (s.pc.toNat + 2))).jumpTo
        ((s.setSp (s.sp - 1)).readReg ⟨r.toNat, h⟩)) := by
  simp only [exec, execCall, withReg_valid h, withReturnAddress_fits hpc, withPushRoom_room hs, State.storeTop_readReg]

theorem exec_ret (hs : s.sp ≠ 255) : exec .ret s = .next (s.raiseSp.jumpTo s.top) := withPopRoom_room hs _

theorem exec_jmp (h : r.toNat < 8) (s : State) : exec (.jmp r) s = .next (s.jumpTo (s.readReg ⟨r.toNat, h⟩)) :=
  withReg_valid h s _

theorem exec_jeq (h : r.toNat < 8) (s : State) :
    exec (.jeq r) s = .next (if s.fl = .equal then s.jumpTo (s.readReg ⟨r.toNat, h⟩) else s.advance 2) := by
  simp only [exec, execJeq, jumpWhen, withReg_valid h, State.equalSet, decide_eq_true_eq]

theorem exec_jne (h : r.toNat < 8) (s : State) :
    exec (.jne r) s = .next (if s.fl = .equal then s.advance 2 else s.jumpTo (s.readReg ⟨r.toNat, h⟩)) := by
  by_cases he : s.fl = .equal <;> simp [exec, execJne, jumpWhen, withReg_valid h, State.equalSet, he]

/-! ### Everything a meaning can do -/

/-- The effect of an instruction whose checks have passed: the states the equations above answer. -/
inductive Effect (s : State) : Instr → State → Prop
  | hlt : Effect s .hlt s.halt
  | ldi (r imm : Byte) (i : RegIdx) (h : r.toNat = i) : Effect s (.ldi r imm) ((s.writeReg i imm).advance 3)
  | prn (r : Byte) (i : RegIdx) (h : r.toNat = i) : Effect s (.prn r) ((s.emit (s.readReg i)).advance 2)
  | add (a b : Byte) (i j : RegIdx) (hi : a.toNat = i) (hj : b.toNat = j) :
      Effect s (.add a b) ((s.writeReg i (s.readReg i + s.readReg j)).advance 3)
  | mul (a b : Byte) (i j : RegIdx) (hi : a.toNat = i) (hj : b.toNat = j) :
      Effect s (.mul a b) ((s.writeReg i (s.readReg i * s.readReg j)).advance 3)
  | cmp (a b : Byte) (i j : RegIdx) (hi : a.toNat = i) (hj : b.toNat = j) :
      Effect s (.cmp a b) ((s.setFlags (compareBytes (s.readReg i) (s.readReg j))).advance 3)
  | push (r : Byte) (i : RegIdx) (h : r.toNat = i) (hs : s.sp ≠ 0) :
      Effect s (.push r) (((s.setSp (s.sp - 1)).storeTop ((s.setSp (s.sp - 1)).readReg i)).advance 2)
  | pop (r : Byte) (i : RegIdx) (h : r.toNat = i) (hs : (s.writeReg i s.top).sp ≠ 255) :
      Effect s (.pop r) ((s.writeReg i s.top).raiseSp.advance 2)
  | call (r : Byte) (i : RegIdx) (h : r.toNat = i) (hpc : s.pc.toNat + 2 ≤ 255) (hs : s.sp ≠ 0) :
      Effect s (.call r) (((s.setSp (s.sp - 1)).storeTop (BitVec.ofNat 8 (s.pc.toNat + 2))).jumpTo
        ((s.setSp (s.sp - 1)).readReg i))
  | ret (hs : s.sp ≠ 255) : Effect s .ret (s.raiseSp.jumpTo s.top)
  | jmp (r : Byte) (i : RegIdx) (h : r.toNat = i) : Effect s (.jmp r) (s.jumpTo (s.readReg i))
  | jeq (r : Byte) (i : RegIdx) (h : r.toNat = i) :
      Effect s (.jeq r) (if s.fl = .equal then s.jumpTo (s.readReg i) else s.advance 2)
  | jne (r : Byte) (i : RegIdx) (h : r.toNat = i) :
      Effect s (.jne r) (if s.fl = .equal then s.advance 2 else s.jumpTo (s.readReg i))

/-- The faults a handler can raise, each with its condition (R172, R177 items 4 to 6). -/
inductive HandlerFault (s : State) : Instr → Cause → Prop
  | register (i : Instr) (r : Byte) (h : i.firstBadRegister = some r) :
      HandlerFault s i (.outOfBoundsAccess .registerIndex r.toNat)
  | returnAddress (r : Byte) (hr : r.toNat < 8) (h : 255 < s.pc.toNat + 2) :
      HandlerFault s (.call r) (.outOfBoundsAccess .returnAddress ((s.pc.toNat : Int) + 2))
  | pushFull (r : Byte) (hr : r.toNat < 8) (h : s.sp = 0) : HandlerFault s (.push r) (.outOfBoundsAccess .stackWrite (-1))
  | callFull (r : Byte) (hr : r.toNat < 8) (hpc : s.pc.toNat + 2 ≤ 255) (h : s.sp = 0) :
      HandlerFault s (.call r) (.outOfBoundsAccess .stackWrite (-1))
  | popFull (r : Byte) (i : RegIdx) (hr : r.toNat = i) (h : (s.writeReg i s.top).sp = 255) :
      HandlerFault s (.pop r) (.outOfBoundsAccess .stackPointer 256)
  | retFull (h : s.sp = 255) : HandlerFault s .ret (.outOfBoundsAccess .stackPointer 256)

theorem firstBad_one {i : Instr} {r : Byte} (hi : i.registerOperands = [r]) (h : 8 ≤ r.toNat) :
    i.firstBadRegister = some r := by
  simp [Instr.firstBadRegister, hi, validRegister, h]

theorem firstBad_fst {i : Instr} (hi : i.registerOperands = [a, b]) (h : 8 ≤ a.toNat) : i.firstBadRegister = some a := by
  simp [Instr.firstBadRegister, hi, validRegister, h]

theorem firstBad_snd {i : Instr} (hi : i.registerOperands = [a, b]) (ha : a.toNat < 8) (h : 8 ≤ b.toNat) :
    i.firstBadRegister = some b := by
  simp [Instr.firstBadRegister, hi, validRegister, h, ha]

/-- A one-register meaning: the index fault, or what follows the check. -/
theorem oneReg_cases {i : Instr} {k : RegIdx → Result} (he : exec i s = withReg r s k) (hi : i.registerOperands = [r])
    (hk : ∀ h : r.toNat < 8, (∃ t, k ⟨r.toNat, h⟩ = .next t ∧ Effect s i t) ∨
      (∃ c, k ⟨r.toNat, h⟩ = fails s c ∧ HandlerFault s i c)) :
    (∃ t, exec i s = .next t ∧ Effect s i t) ∨ (∃ c, exec i s = fails s c ∧ HandlerFault s i c) := by
  rcases withReg_cases r s k with ⟨h, hw⟩ | ⟨h, hw⟩
  · rw [he, hw]
    exact hk h
  · exact .inr ⟨_, he.trans hw, .register i r (firstBad_one hi h)⟩

/-- A two-register meaning: an index fault, or what follows the checks. -/
theorem twoRegs_cases {i : Instr} {k : RegIdx → RegIdx → State} (he : exec i s = withRegs a b s fun i j => .next (k i j))
    (hi : i.registerOperands = [a, b])
    (hk : ∀ (ha : a.toNat < 8) (hb : b.toNat < 8), Effect s i (k ⟨a.toNat, ha⟩ ⟨b.toNat, hb⟩)) :
    (∃ t, exec i s = .next t ∧ Effect s i t) ∨ (∃ c, exec i s = fails s c ∧ HandlerFault s i c) := by
  by_cases ha : a.toNat < 8
  · by_cases hb : b.toNat < 8
    · exact .inl ⟨_, he.trans (withRegs_valid ha hb s _), hk ha hb⟩
    · refine .inr ⟨_, ?_, .register i b (firstBad_snd hi ha (by omega))⟩
      rw [he, withRegs, withReg_valid ha, withReg_invalid (by omega)]
  · refine .inr ⟨_, ?_, .register i a (firstBad_fst hi (by omega))⟩
    rw [he, withRegs, withReg_invalid (by omega)]

/-- Everything a meaning can do: its effect, or one of the faults of its rule. It never stops. -/
theorem exec_cases (i : Instr) (s : State) :
    (∃ t, exec i s = .next t ∧ Effect s i t) ∨ (∃ c, exec i s = fails s c ∧ HandlerFault s i c) := by
  cases i with
  | hlt => exact .inl ⟨_, exec_hlt s, .hlt⟩
  | ldi r imm => exact oneReg_cases rfl rfl fun h => .inl ⟨_, rfl, .ldi r imm ⟨_, h⟩ rfl⟩
  | prn r => exact oneReg_cases rfl rfl fun h => .inl ⟨_, rfl, .prn r ⟨_, h⟩ rfl⟩
  | add a b =>
    refine twoRegs_cases rfl rfl fun ha hb => ?_
    rw [aluByte_add]
    exact .add a b _ _ rfl rfl
  | mul a b =>
    refine twoRegs_cases rfl rfl fun ha hb => ?_
    rw [aluByte_mul]
    exact .mul a b _ _ rfl rfl
  | cmp a b => exact twoRegs_cases rfl rfl fun ha hb => .cmp a b _ _ rfl rfl
  | push r =>
    refine oneReg_cases rfl rfl fun h => ?_
    by_cases hs : s.sp = 0
    · exact .inr ⟨_, withPushRoom_full hs _, .pushFull r h hs⟩
    · exact .inl ⟨_, withPushRoom_room hs _, .push r ⟨_, h⟩ rfl hs⟩
  | pop r =>
    refine oneReg_cases rfl rfl fun h => ?_
    by_cases hs : (s.writeReg ⟨r.toNat, h⟩ s.top).sp = 255
    · exact .inr ⟨_, withPopRoom_full hs _, .popFull r _ rfl hs⟩
    · exact .inl ⟨_, withPopRoom_room hs _, .pop r _ rfl hs⟩
  | call r =>
    refine oneReg_cases rfl rfl fun h => ?_
    by_cases hpc : s.pc.toNat + 2 ≤ 255
    · rw [withReturnAddress_fits hpc]
      by_cases hs : s.sp = 0
      · exact .inr ⟨_, withPushRoom_full hs _, .callFull r h hpc hs⟩
      · exact .inl ⟨_, withPushRoom_room hs _, .call r ⟨_, h⟩ rfl hpc hs⟩
    · exact .inr ⟨_, withReturnAddress_over (by omega) _, .returnAddress r h (by omega)⟩
  | ret =>
    by_cases hs : s.sp = 255
    · exact .inr ⟨_, withPopRoom_full hs _, .retFull hs⟩
    · exact .inl ⟨_, exec_ret hs, .ret hs⟩
  | jmp r => exact oneReg_cases rfl rfl fun h => .inl ⟨_, rfl, .jmp r ⟨_, h⟩ rfl⟩
  | jeq r => exact oneReg_cases rfl rfl fun h => .inl ⟨_, (withReg_valid h s _).symm.trans (exec_jeq h s), .jeq r _ rfl⟩
  | jne r => exact oneReg_cases rfl rfl fun h => .inl ⟨_, (withReg_valid h s _).symm.trans (exec_jne h s), .jne r _ rfl⟩

/-- The same, read from the next state. -/
theorem exec_next {i : Instr} (h : exec i s = .next t) : Effect s i t ∨ ∃ c, t = s.raise c ∧ HandlerFault s i c := by
  rcases exec_cases i s with ⟨u, hu, he⟩ | ⟨c, hc, hf⟩
  · rw [hu] at h
    cases h
    exact .inl he
  · rw [hc] at h
    cases h
    exact .inr ⟨c, rfl, hf⟩

end Sys2Proof.Machine
end

