-- ==== Sys2Proof/Laws/PerInstr.lean ====
section
/-! SUPPORT. A statement about every instruction as syntax, with one lemma per constructor: the encoding has the length of
the mnemonic's format (R50, R51), it starts with the mnemonic's opcode byte, and the register operands are its first
operand bytes. -/

namespace Sys2Proof.Laws.EncodedShape

/-- The shape of an instruction's encoding under any opcode assignment. -/
def Statement (i : Instr) : Prop :=
  ∀ opc : OpcodeMap, (encode opc i).length = 1 + i.mnemonic.operandCount ∧ (encode opc i).length = i.length ∧
    (encode opc i).head? = some (opc i.mnemonic) ∧ i.registerOperands <+: (encode opc i).tail

theorem hlt : Statement .hlt := fun _ => ⟨rfl, rfl, rfl, List.prefix_rfl⟩
theorem ldi (r imm : Byte) : Statement (.ldi r imm) := fun _ => ⟨rfl, rfl, rfl, List.prefix_append [r] [imm]⟩
theorem prn (r : Byte) : Statement (.prn r) := fun _ => ⟨rfl, rfl, rfl, List.prefix_rfl⟩
theorem add (a b : Byte) : Statement (.add a b) := fun _ => ⟨rfl, rfl, rfl, List.prefix_rfl⟩
theorem mul (a b : Byte) : Statement (.mul a b) := fun _ => ⟨rfl, rfl, rfl, List.prefix_rfl⟩
theorem cmp (a b : Byte) : Statement (.cmp a b) := fun _ => ⟨rfl, rfl, rfl, List.prefix_rfl⟩
theorem push (r : Byte) : Statement (.push r) := fun _ => ⟨rfl, rfl, rfl, List.prefix_rfl⟩
theorem pop (r : Byte) : Statement (.pop r) := fun _ => ⟨rfl, rfl, rfl, List.prefix_rfl⟩
theorem call (r : Byte) : Statement (.call r) := fun _ => ⟨rfl, rfl, rfl, List.prefix_rfl⟩
theorem ret : Statement .ret := fun _ => ⟨rfl, rfl, rfl, List.prefix_rfl⟩
theorem jmp (r : Byte) : Statement (.jmp r) := fun _ => ⟨rfl, rfl, rfl, List.prefix_rfl⟩
theorem jeq (r : Byte) : Statement (.jeq r) := fun _ => ⟨rfl, rfl, rfl, List.prefix_rfl⟩
theorem jne (r : Byte) : Statement (.jne r) := fun _ => ⟨rfl, rfl, rfl, List.prefix_rfl⟩

end Sys2Proof.Laws.EncodedShape
end

