-- ==== Sys2Proof/Laws/Step.lean ====
section
/-! SUPPORT. What fetching can answer, and what a step can do. -/

namespace Sys2Proof.Machine

variable {opc : OpcodeMap} {s t : State}

/-- The faults of fetch, decode and operand fetch, each with its condition (R73 to R75). -/
inductive FetchFault (opc : OpcodeMap) (s : State) : Cause → Prop
  | fetch (h : 255 < s.pc.toNat) : FetchFault opc s (.outOfBoundsAccess .fetch s.pc.toNat)
  | unknown (h : s.pc.toNat ≤ 255) (hu : ∀ m, opc m ≠ s.readByte s.pc.toNat) :
      FetchFault opc s (.unknownOpcode (s.readByte s.pc.toNat))
  | operand (m : Mnemonic) (h : s.pc.toNat ≤ 255) (hm : lookupOpcode opc (s.readByte s.pc.toNat) = some m)
      (hn : 255 < s.pc.toNat + m.operandCount) : FetchFault opc s (.outOfBoundsAccess .operandFetch 256)

/-- What was fetched: an instruction whose opcode and operand bytes stand at the pc. -/
structure Fetched (opc : OpcodeMap) (s : State) (i : Instr) : Prop where
  pc_le : s.pc.toNat + i.mnemonic.operandCount ≤ 255
  lookup : lookupOpcode opc (s.readByte s.pc.toNat) = some i.mnemonic
  operands : i.operands =
    ([s.readByte (s.pc.toNat + 1), s.readByte (s.pc.toNat + 2)] : List Byte).take i.mnemonic.operandCount

/-- The bytes at a pc in memory: the opcode byte, and as many of the next two as there are. -/
theorem fetchBytes_eq (h : s.pc.toNat ≤ 255) :
    s.fetchBytes = s.readByte s.pc.toNat ::
      ([s.readByte (s.pc.toNat + 1), s.readByte (s.pc.toNat + 2)] : List Byte).take (255 - s.pc.toNat) := by
  simp only [State.fetchBytes, Memory.readUpTo_three, State.readByte]
  split_ifs with h1 h2 h3
  · rw [List.take_of_length_le (by simp only [List.length_cons, List.length_nil]; omega)]
  · simp [h2]
  · simp [h3]
  · omega

theorem fetchBytes_above (h : 255 < s.pc.toNat) : s.fetchBytes = [] := by
  simp only [State.fetchBytes, Memory.readUpTo_three]
  split_ifs <;> first | rfl | omega

/-- Everything fetching can answer. -/
theorem fetchInstr_cases (opc : OpcodeMap) (s : State) :
    (∃ i, fetchInstr opc s = .ok i ∧ Fetched opc s i) ∨ (∃ c, fetchInstr opc s = .error c ∧ FetchFault opc s c) := by
  by_cases h : s.pc.toNat ≤ 255
  · simp only [fetchInstr, fetchBytes_eq h, decode]
    cases hm : lookupOpcode opc (s.readByte s.pc.toNat) with
    | none => exact .inr ⟨_, rfl, .unknown h (lookup_eq_none.mp hm)⟩
    | some m =>
      simp only
      cases hd : decodeOperands
          (([s.readByte (s.pc.toNat + 1), s.readByte (s.pc.toNat + 2)] : List Byte).take (255 - s.pc.toNat)) m with
      | ok p =>
        obtain ⟨i, rest⟩ := p
        obtain ⟨rfl, hb⟩ := decodeOperands_ok hd
        have hl := congrArg List.length hb
        have hc := i.operands_length
        simp only [List.length_take, List.length_append, List.length_cons, List.length_nil, hc] at hl
        refine .inl ⟨i, rfl, by omega, hm, ?_⟩
        have ht := congrArg (List.take i.operands.length) hb
        rw [List.take_left, List.take_take, hc, Nat.min_eq_left (by omega)] at ht
        exact ht.symm
      | error e =>
        obtain ⟨hlt, rfl⟩ := decodeOperands_error hd
        simp only [List.length_take, List.length_cons, List.length_nil] at hlt
        have hle := m.operandCount_le
        have h256 : causeOf s.pc (.missingOperand
            ((([s.readByte (s.pc.toNat + 1), s.readByte (s.pc.toNat + 2)] : List Byte).take
              (255 - s.pc.toNat)).length + 1)) = .outOfBoundsAccess .operandFetch 256 := by
          simp only [causeOf, List.length_take, List.length_cons, List.length_nil, Cause.outOfBoundsAccess.injEq,
            true_and]
          omega
        exact .inr ⟨_, congrArg Except.error h256, .operand m h hm (by omega)⟩
  · have h : 255 < s.pc.toNat := by omega
    simp only [fetchInstr, fetchBytes_above h, decode, causeOf]
    exact .inr ⟨_, rfl, .fetch h⟩

/-- A running machine runs the instruction it fetched, or takes the fault of the fetch (R83). -/
theorem stepWith_cases (opc : OpcodeMap) (hr : s.run = .running) :
    (∃ i, Fetched opc s i ∧ fetchInstr opc s = .ok i ∧ stepWith opc s = exec i s) ∨
      (∃ c, FetchFault opc s c ∧ fetchInstr opc s = .error c ∧ stepWith opc s = fails s c) := by
  rcases fetchInstr_cases opc s with ⟨i, hi, hf⟩ | ⟨c, hc, hf⟩
  · exact .inl ⟨i, hf, hi, by simp only [stepWith, hr, hi]⟩
  · exact .inr ⟨c, hf, hc, by simp only [stepWith, hr, hc]⟩

/-- Everything a step that answers a next state can have done: an instruction's effect, a fault of its handler, or a
fault of the fetch. -/
theorem stepWith_next (h : stepWith opc s = .next t) :
    s.run = .running ∧ ((∃ i, Fetched opc s i ∧ (Effect s i t ∨ ∃ c, t = s.raise c ∧ HandlerFault s i c)) ∨
      ∃ c, t = s.raise c ∧ FetchFault opc s c) := by
  cases hr : s.run with
  | running =>
    refine ⟨rfl, ?_⟩
    rcases stepWith_cases opc hr with ⟨i, hf, -, he⟩ | ⟨c, hf, -, he⟩
    · exact .inl ⟨i, hf, exec_next (he ▸ h)⟩
    · rw [he] at h
      cases h
      exact .inr ⟨c, rfl, hf⟩
  | halted => simp [stepWith, hr] at h
  | faulted => simp [stepWith, hr] at h

/-- An instruction whose bytes stand at the pc is the one fetched, when the opcode lookup finds it. -/
theorem fetchInstr_of_fetched {i : Instr} (hf : Fetched opc s i) : fetchInstr opc s = .ok i := by
  have hpc := hf.pc_le
  have hc := i.operands_length
  have hle := i.mnemonic.operandCount_le
  obtain ⟨rest, hrest⟩ : ∃ rest,
      ([s.readByte (s.pc.toNat + 1), s.readByte (s.pc.toNat + 2)] : List Byte).take (255 - s.pc.toNat) =
        i.operands ++ rest := by
    rw [hf.operands]
    refine ⟨(([s.readByte (s.pc.toNat + 1), s.readByte (s.pc.toNat + 2)] : List Byte).take
      (255 - s.pc.toNat)).drop i.mnemonic.operandCount, ?_⟩
    conv_lhs => rw [← List.take_append_drop i.mnemonic.operandCount (List.take (255 - s.pc.toNat) _)]
    rw [List.take_take, Nat.min_eq_left (by omega)]
  simp only [fetchInstr, fetchBytes_eq (show s.pc.toNat ≤ 255 by omega), decode, hf.lookup, hrest,
    decodeOperands_operands]

end Sys2Proof.Machine
end

