-- ==== Sys2Proof/Tests/Slice0.lean ====
section
/-! SUPPORT. Tests of the model, each on one decoding or one step, and for every statement with hypotheses a concrete state
that meets them. Expected results are the spec's own: the encodings of 30_encoding.md and the vectors V<n> and programs of
95_test_vectors.md. The opcode bytes of ten mnemonics are the default's (log 3). -/

namespace Sys2Proof.Tests

open Sys2Proof.Machine

/-! ## WellFormed refuses an ill-formed term, for each check -/

theorem test_ldi_register_checked : (Instr.ldi 8 1).wellFormed = false := by decide
theorem test_ldi_immediate_not_checked : (Instr.ldi 7 255).wellFormed = true := by decide
theorem test_prn_register_checked : (Instr.prn 8).wellFormed = false := by decide
theorem test_add_first_checked : (Instr.add 200 1).wellFormed = false := by decide
theorem test_add_second_checked : (Instr.add 1 9).wellFormed = false := by decide
theorem test_mul_first_checked : (Instr.mul 8 0).wellFormed = false := by decide
theorem test_mul_second_checked : (Instr.mul 0 8).wellFormed = false := by decide
theorem test_cmp_first_checked : (Instr.cmp 8 0).wellFormed = false := by decide
theorem test_cmp_second_checked : (Instr.cmp 0 255).wellFormed = false := by decide
theorem test_push_register_checked : (Instr.push 8).wellFormed = false := by decide
theorem test_pop_register_checked : (Instr.pop 8).wellFormed = false := by decide
theorem test_call_register_checked : (Instr.call 8).wellFormed = false := by decide
theorem test_jmp_register_checked : (Instr.jmp 8).wellFormed = false := by decide
theorem test_jeq_register_checked : (Instr.jeq 8).wellFormed = false := by decide
theorem test_jne_register_checked : (Instr.jne 8).wellFormed = false := by decide
theorem test_first_bad_register_reported : (Instr.add 200 9).firstBadRegister = some 200 := by decide

/-! ## Decoding words written out from the encodings of R51 and R55 -/

theorem test_decode_hlt : decodeTableWord 8 0b00000001 = some .hlt := by decide
theorem test_decode_ldi : decodeTableWord 24 0b00001000_00000000_10000010 = some (.ldi 0 8) := by decide
theorem test_decode_prn : decodeTableWord 16 0b00000011_01000111 = some (.prn 3) := by decide
theorem test_decode_add : decodeTableWord 24 0b00000001_00000000_10100000 = some (.add 0 1) := by decide
theorem test_decode_mul : decodeTableWord 24 0b00000001_00000000_10100010 = some (.mul 0 1) := by decide
theorem test_decode_cmp : decodeTableWord 24 0b00000001_00000010_10100111 = some (.cmp 2 1) := by decide
theorem test_decode_push : decodeTableWord 16 0b00000001_01000101 = some (.push 1) := by decide
theorem test_decode_pop : decodeTableWord 16 0b00000010_01000110 = some (.pop 2) := by decide
theorem test_decode_call : decodeTableWord 16 0b00000001_01010000 = some (.call 1) := by decide
theorem test_decode_ret : decodeTableWord 8 0b00010001 = some .ret := by decide
theorem test_decode_jmp : decodeTableWord 16 0b00000010_01010100 = some (.jmp 2) := by decide
theorem test_decode_jeq : decodeTableWord 16 0b00000010_01010101 = some (.jeq 2) := by decide
theorem test_decode_jne : decodeTableWord 16 0b00000011_01010110 = some (.jne 3) := by decide
theorem test_decode_zero_is_unknown : decodeTableWord 8 0 = none := by decide
theorem test_decode_neighbour_is_unknown : decodeTableWord 8 0x83 = none := by decide
theorem test_decode_missing_operand : decode opcodeByte [0x82, 0x01] = .error (.missingOperand 2) := by decide

/-! ## Single steps -/

/-- The reset state with the pc moved and bytes placed there: the start state of the vectors. -/
def vec (pc : PcWord) (bytes : List Byte) : State := { State.reset with pc := pc }.placeAtPc bytes

/-- The next state of a step, if there is one. -/
def after (s : State) : Option State :=
  match step s with
  | .next t => some t
  | _ => none

/-- The fault record after a step. -/
def faultAfter (s : State) : Option FaultRecord := (after s).bind (fun t => t.fault)

/-- V1. -/
theorem test_v1_hlt : (after (vec 5 [0x01])).map (fun t => (t.run, t.pc)) = some (.halted, 5) := by decide
/-- V4. -/
theorem test_v4_prn : (after ((vec 10 [0x47, 0x03]).writeReg 3 255)).map (fun t => (t.out, t.pc)) = some ([255], 12) := by
  decide
/-- V8. -/
theorem test_v8_prn_at_254 : (after ((vec 254 [0x47, 0x01]).writeReg 1 77)).map (fun t => (t.out, t.pc)) =
    some ([77], 256) := by decide
/-- V12. -/
theorem test_v12_ldi_r7 : (after (vec 0 [0x82, 0x07, 0x10])).map (fun t => (t.sp, t.pc)) = some (16, 3) := by decide
/-- V14. -/
theorem test_v14_ldi_at_254 : faultAfter (vec 254 [0x82, 0x01]) = some ⟨.outOfBoundsAccess .operandFetch 256, 254⟩ := by
  decide
/-- V20. -/
theorem test_v20_add : (after (((vec 0 [0xA0, 0x00, 0x01]).writeReg 0 200).writeReg 1 100)).map
    (fun t => (t.readReg 0, t.readReg 1)) = some (44, 100) := by decide
/-- V28: both registers bad, the first is reported. -/
theorem test_v28_add_both_bad : faultAfter (vec 0 [0xA0, 0xC8, 0x09]) =
    some ⟨.outOfBoundsAccess .registerIndex 200, 0⟩ := by decide
/-- V32. -/
theorem test_v32_mul : (after (((vec 0 [0xA2, 0x00, 0x01]).writeReg 0 255).writeReg 1 255)).map (fun t => t.readReg 0) =
    some 1 := by decide
/-- V36: the source is also the destination. -/
theorem test_v36_mul_square : (after ((vec 0 [0xA2, 0x03, 0x03]).writeReg 3 17)).map (fun t => t.readReg 3) = some 33 := by
  decide
/-- V43: unsigned. -/
theorem test_v43_cmp_unsigned : (after ((vec 0 [0xA7, 0x00, 0x01]).writeReg 1 255)).map (fun t => t.fl) = some .less := by
  decide
/-- V45. -/
theorem test_v45_cmp_greater : (after { ((vec 0 [0xA7, 0x00, 0x01]).writeReg 0 5).writeReg 1 1 with fl := .equal }).map
    (fun t => t.fl) = some .greater := by decide
/-- V51: the lowered stack pointer is what is stored. -/
theorem test_v51_push_r7 : (after (vec 0 [0x45, 0x07])).map (fun t => (t.sp, t.readByte 243)) = some (243, 243) := by decide
/-- V54: PUSH onto its own operand byte. -/
theorem test_v54_push_own_operand : (after (((vec 9 [0x45, 0x01]).writeReg 1 3).writeReg 7 11)).map
    (fun t => (t.sp, t.readByte 10, t.pc)) = some (10, 3, 11) := by decide
/-- V56. -/
theorem test_v56_pop_r7 : (after (((vec 0 [0x46, 0x07]).writeByte 243 99).writeReg 7 243)).map (fun t => t.sp) =
    some 100 := by decide
/-- V57. -/
theorem test_v57_pop_r7_of_255 : faultAfter (((vec 0 [0x46, 0x07]).writeByte 243 255).writeReg 7 243) =
    some ⟨.outOfBoundsAccess .stackPointer 256, 0⟩ := by decide
/-- V71: the target is the lowered stack pointer. -/
theorem test_v71_call_r7 : (after (vec 6 [0x50, 0x07])).map (fun t => (t.sp, t.readByte 243, t.pc)) =
    some (243, 8, 243) := by decide
/-- V74: the return address is checked before the stack. -/
theorem test_v74_call_at_254 : faultAfter ((vec 254 [0x50, 0x01]).writeReg 7 0) =
    some ⟨.outOfBoundsAccess .returnAddress 256, 254⟩ := by decide
/-- V76. -/
theorem test_v76_ret : (after (((vec 30 [0x11]).writeByte 243 8).writeReg 7 243)).map (fun t => (t.sp, t.pc)) =
    some (244, 8) := by decide
/-- V77. -/
theorem test_v77_ret_full : faultAfter ((vec 30 [0x11]).writeReg 7 255) =
    some ⟨.outOfBoundsAccess .stackPointer 256, 30⟩ := by decide
/-- V82. -/
theorem test_v82_jmp : (after ((vec 0 [0x54, 0x02]).writeReg 2 255)).map (fun t => t.pc) = some 255 := by decide
/-- V84N: no flag set. -/
theorem test_v84n_jeq_falls : (after ((vec 4 [0x55, 0x02]).writeReg 2 19)).map (fun t => t.pc) = some 6 := by decide
/-- V86: not taken, bad register. -/
theorem test_v86_jeq_bad_register : faultAfter (vec 4 [0x55, 0x08]) =
    some ⟨.outOfBoundsAccess .registerIndex 8, 4⟩ := by decide
/-- V85N: no flag set. -/
theorem test_v85n_jne_jumps : (after ((vec 4 [0x56, 0x02]).writeReg 2 19)).map (fun t => t.pc) = some 19 := by decide
/-- V87. -/
theorem test_v87_jne_at_254 : (after { (vec 254 [0x56, 0x02]) with fl := .equal }).map (fun t => t.pc) = some 256 := by
  decide
/-- V90. -/
theorem test_v90_unknown : faultAfter (vec 0 [0x00]) = some ⟨.unknownOpcode 0, 0⟩ := by decide
/-- V94. -/
theorem test_v94_fetch : faultAfter { State.reset with pc := 258 } = some ⟨.outOfBoundsAccess .fetch 258, 258⟩ := by decide
/-- V96. -/
theorem test_v96_no_step : after (State.reset.halt) = none := by decide
/-- S1, its first step, through the host's placement. -/
theorem test_fetch_word_runs : (after (State.reset.withFetchWord 24 0x080082)).map (fun t => (t.readReg 0, t.pc)) =
    some (8, 3) := by decide
/-- R152, S1: what the sink shows for the value 8. -/
theorem test_sink_shows_decimal : (State.reset.emit 8).sinkLines = ["8"] := by decide

/-! ## Witnesses: the hypotheses of each statement, met together

One theorem per statement of Certificates/Slice0/Obligations.lean that has hypotheses, named after it; one per clause, at a
boundary value of its range, where a statement has several. -/

/-- A second assignment R55 allows, with ADD's and MUL's default bytes exchanged: the claims are about more than the
default. -/
def swappedOpcodes : OpcodeMap := fun m => if m = .add then 0xA2 else if m = .mul then 0xA0 else opcodeByte m

/-- For every statement over legal opcode assignments, DecodeOfEncodeIsTheInstruction first. -/
theorem witness_DecodeOfEncodeIsTheInstruction : opcodeByte.Legal ∧ swappedOpcodes.Legal ∧ swappedOpcodes ≠ opcodeByte :=
  ⟨opcodeByte_legal,
    ⟨fun m n h => by cases m <;> cases n <;> first | rfl | exact absurd h (by decide), rfl, rfl, rfl⟩,
    fun h => absurd (congrFun h .add) (by decide)⟩

theorem witness_DecodedBytesAreTheEncoding : decode opcodeByte [0x82, 0x00, 0x08, 0x01] = .ok (.ldi 0 8, [0x01]) := by
  decide

theorem witness_DecoderRejectsByName_none : decode opcodeByte [] = .error .noOpcode := by decide
theorem witness_DecoderRejectsByName_unknown : decode opcodeByte [0x83, 0x00] = .error (.unknownOpcode 0x83) := by decide
theorem witness_DecoderRejectsByName_first : decode opcodeByte [0xA0] = .error (.missingOperand 1) := by decide
theorem witness_DecoderRejectsByName_second : decode opcodeByte [0xA0, 0x00] = .error (.missingOperand 2) := by decide

theorem witness_DecodingDependsOnMemoryAndPcOnly :
    ((vec 4 [0x55, 0x02]).writeReg 2 19).pc = (vec 4 [0x55, 0x02]).pc ∧
      ∀ k, k < 3 → ((vec 4 [0x55, 0x02]).writeReg 2 19).readByte ((vec 4 [0x55, 0x02]).pc.toNat + k) =
        (vec 4 [0x55, 0x02]).readByte ((vec 4 [0x55, 0x02]).pc.toNat + k) := by decide

theorem witness_ReadAfterWrite_other_cell : (255 : Nat) ≠ 0 ∧ (vec 255 [0x01]).readByte 255 = 0x01 ∧
    ((vec 255 [0x01]).writeByte 0 0x02).readByte 255 = 0x01 := by decide

theorem witness_CanonicalMemoriesAreEqualData :
    Memory.wf [(0, 1), (255, 2)] = true ∧ Memory.wf (Memory.storeAt (Memory.storeAt [] 255 [2]) 0 [1]) = true ∧
      ∀ a, a < 256 → Memory.read [(0, 1), (255, 2)] a =
        Memory.read (Memory.storeAt (Memory.storeAt [] 255 [2]) 0 [1]) a := ⟨rfl, rfl, fun _ _ => rfl⟩

theorem witness_ImageIsLoadedFromAddressZero_longest : (List.replicate 256 (0x01 : Byte)).length ≤ 256 :=
  Nat.le_of_eq List.length_replicate
theorem witness_ImageIsLoadedFromAddressZero_empty : ∀ m, opcodeByte m ≠ 0x00 := by intro m; cases m <;> decide
theorem witness_ResetLeavesTheseValues : (bootWith 0xFF .equal [0x01, 0x11]).isSome = true := rfl
theorem witness_OversizeImageDoesNotStart : 256 < (List.replicate 257 (0x01 : Byte)).length := by
  rw [List.length_replicate]
  decide

theorem witness_StepRunsTheDecodedInstruction : (vec 254 [0x47, 0x01]).run = .running ∧
    decode opcodeByte (vec 254 [0x47, 0x01]).fetchBytes = .ok (.prn 1, []) := by decide

theorem witness_EncodedInstructionAtPcRuns_hlt_at_255 : (vec 255 [0x01]).run = .running ∧
    BytesAt (vec 255 [0x01]) (vec 255 [0x01]).pc.toNat (encode opcodeByte .hlt) := ⟨rfl, by decide, by decide⟩
theorem witness_EncodedInstructionAtPcRuns_ldi_at_253 : (vec 253 [0x82, 0x01, 0x07]).run = .running ∧
    BytesAt (vec 253 [0x82, 0x01, 0x07]) (vec 253 [0x82, 0x01, 0x07]).pc.toNat (encode opcodeByte (.ldi 1 7)) :=
  ⟨rfl, by decide, by decide⟩

theorem witness_FetchAboveMemoryFaults : ({ State.reset with pc := 256 } : State).run = .running ∧
    255 < ({ State.reset with pc := 256 } : State).pc.toNat := by decide

theorem witness_UnknownOpcodeIsFatal : (vec 255 [0x02]).run = .running ∧ (vec 255 [0x02]).pc.toNat ≤ 255 ∧
    ∀ m, opcodeByte m ≠ (vec 255 [0x02]).readByte (vec 255 [0x02]).pc.toNat :=
  ⟨rfl, by decide, fun m => by cases m <;> decide⟩
/-- The second clause: a handler run in a state that already has such a record keeps it. -/
theorem witness_UnknownOpcodeIsFatal_record : ∃ t, exec (.jmp 0) (State.reset.raise (.unknownOpcode 2)) = .next t ∧
    t.fault = some ⟨.unknownOpcode 2, 0⟩ := ⟨_, rfl, rfl⟩

theorem witness_OperandAboveMemoryFaults_at_255 : (vec 255 [0x55]).run = .running ∧
    OpcodeAtPc opcodeByte (vec 255 [0x55]) .jeq ∧ 255 < (vec 255 [0x55]).pc.toNat + Mnemonic.jeq.operandCount :=
  ⟨rfl, ⟨by decide, by decide⟩, by decide⟩
theorem witness_OperandAboveMemoryFaults_at_254 : (vec 254 [0x82, 0x01]).run = .running ∧
    OpcodeAtPc opcodeByte (vec 254 [0x82, 0x01]) .ldi ∧
    255 < (vec 254 [0x82, 0x01]).pc.toNat + Mnemonic.ldi.operandCount := ⟨rfl, ⟨by decide, by decide⟩, by decide⟩

theorem witness_BadRegisterOperandFaults_first : (Instr.jeq 8).firstBadRegister = some 8 := by decide
theorem witness_BadRegisterOperandFaults_second : (Instr.cmp 7 8).firstBadRegister = some 8 := by decide

theorem witness_StepDefinedExactlyWhileRunning : State.reset.run = .running ∧ State.reset.halt.run ≠ .running := by decide

/-- HLT at 255 is a step that halts. -/
theorem witness_OnlyHltHalts : ∃ t, stepWith opcodeByte (vec 255 [0x01]) = .next t ∧ t.run = .halted := ⟨_, rfl, rfl⟩

/-- A faulting step: also the witness of UnsupportedAluOperationUnreachable, whose one hypothesis is a next state. -/
theorem witness_FaultingStepChangesNothingElse : ∃ t, stepWith opcodeByte ((vec 10 [0x45, 0x01]).writeReg 7 0) = .next t ∧
    t.run = .faulted := ⟨_, rfl, rfl⟩

theorem witness_UnsupportedAluOperationUnreachable : ∃ t, stepWith opcodeByte (vec 0 [0xA2, 0x00, 0x01]) = .next t ∧
    t.fault = none := ⟨_, rfl, rfl⟩

/-- FaultIsTheFirstFailingCheck and StepIsRuleR83: running states in which a check fails and in which none does. -/
theorem witness_FaultIsTheFirstFailingCheck : (vec 254 [0x50, 0x01]).run = .running ∧
    firstFault opcodeByte (vec 254 [0x50, 0x01]) = some (.outOfBoundsAccess .returnAddress 256) ∧
    firstFault opcodeByte (vec 253 [0x50, 0x01]) = none := by decide

theorem witness_StepIsRuleR83 : (vec 0 [0x46, 0x07]).run = .running := rfl

/-! ### The instructions: a register operand at each end of its range, with the pc in R18's range -/

theorem witness_one_register : Names 0 0 ∧ Names 7 7 ∧ State.reset.pc.toNat ≤ 258 ∧
    ({ State.reset with pc := 258 } : State).pc.toNat ≤ 258 := ⟨rfl, rfl, by decide, by decide⟩

theorem witness_PrnEmitsTheRegister : Names 7 7 ∧ State.reset.pc.toNat ≤ 258 := ⟨rfl, by decide⟩
theorem witness_LdiLoadsTheImmediate : Names 7 7 ∧ State.reset.pc.toNat ≤ 258 := ⟨rfl, by decide⟩
theorem witness_AddIsModulo256 : Names 0 0 ∧ Names 7 7 ∧ State.reset.pc.toNat ≤ 258 := ⟨rfl, rfl, by decide⟩
theorem witness_MulIsModulo256 : Names 3 3 ∧ Names 3 3 ∧ State.reset.pc.toNat ≤ 258 := ⟨rfl, rfl, by decide⟩
theorem witness_CmpWritesOneFlag : Names 0 0 ∧ Names 7 7 ∧ State.reset.pc.toNat ≤ 258 := ⟨rfl, rfl, by decide⟩
theorem witness_PushStoresBelowTheStackPointer : Names 1 1 ∧ (State.reset.writeReg 7 1).sp ≠ 0 ∧
    (State.reset.writeReg 7 1).pc.toNat ≤ 258 := ⟨rfl, by decide, by decide⟩
theorem witness_PushStoresBelowTheStackPointer_r7 : Names 7 7 ∧ State.reset.sp ≠ 0 ∧ State.reset.pc.toNat ≤ 258 :=
  ⟨rfl, by decide, by decide⟩
theorem witness_PopLoadsTheTopOfTheStack : Names 0 0 ∧ (0 : RegIdx) ≠ 7 ∧ (State.reset.writeReg 7 254).sp ≠ 255 ∧
    (State.reset.writeReg 7 254).pc.toNat ≤ 258 := ⟨rfl, by decide, by decide, by decide⟩
/-- The stack pointer at 255: POP R7 still completes. -/
theorem witness_PopIntoTheStackPointer : (State.reset.writeReg 7 255).readByte (State.reset.writeReg 7 255).sp.toNat ≠ 255 ∧
    (State.reset.writeReg 7 255).pc.toNat ≤ 258 := by decide
theorem witness_CallPushesTheReturnAddress : Names 1 1 ∧ (vec 253 [0x50, 0x01]).pc.toNat + 2 ≤ 255 ∧
    (vec 253 [0x50, 0x01]).sp ≠ 0 := ⟨rfl, by decide, by decide⟩
theorem witness_RetPopsThePc : (State.reset.writeReg 7 254).sp ≠ 255 := by decide
theorem witness_JmpGoesToTheRegister : Names 7 7 := rfl
theorem witness_JeqJumpsWhenEqual : Names 2 2 ∧ ({ State.reset with fl := .equal } : State).pc.toNat ≤ 258 :=
  ⟨rfl, by decide⟩
theorem witness_JneJumpsWhenNotEqual : Names 2 2 ∧ ({ State.reset with fl := .less } : State).pc.toNat ≤ 258 :=
  ⟨rfl, by decide⟩

theorem witness_PushWithNoRoomFaults : Names 1 1 ∧ ((vec 253 [0x50, 0x01]).writeReg 7 0).sp = 0 ∧
    ((vec 253 [0x50, 0x01]).writeReg 7 0).pc.toNat + 2 ≤ 255 := ⟨rfl, by decide, by decide⟩
theorem witness_PopPastTheTopFaults_other : Names 0 0 ∧ (if (0 : RegIdx) = 7 then
    (State.reset.writeReg 7 255).readByte (State.reset.writeReg 7 255).sp.toNat else (State.reset.writeReg 7 255).sp) = 255 :=
  ⟨rfl, by decide⟩
theorem witness_PopPastTheTopFaults_r7 : Names 7 7 ∧ (if (7 : RegIdx) = 7 then
    (State.reset.writeByte 244 255).readByte (State.reset.writeByte 244 255).sp.toNat
      else (State.reset.writeByte 244 255).sp) = 255 := ⟨rfl, by decide⟩
theorem witness_PopPastTheTopFaults_ret : (State.reset.writeReg 7 255).sp = 255 := by decide
theorem witness_CallAtTheTopOfMemoryFaults : Names 1 1 ∧ 255 < (vec 254 [0x50, 0x01]).pc.toNat + 2 := ⟨rfl, by decide⟩

/-! ### The two rules from their bytes, clause by clause (the first clause's witness is FetchAboveMemoryFaults's) -/

theorem witness_PrnRuleFromBytes_operand : (vec 255 [0x47]).run = .running ∧
    (vec 255 [0x47]).readByte (vec 255 [0x47]).pc.toNat = 0b01000111 ∧ (vec 255 [0x47]).pc.toNat = 255 := by decide
theorem witness_PrnRuleFromBytes_register : (vec 254 [0x47, 0x08]).run = .running ∧
    (vec 254 [0x47, 0x08]).readByte (vec 254 [0x47, 0x08]).pc.toNat = 0b01000111 ∧ (vec 254 [0x47, 0x08]).pc.toNat ≤ 254 ∧
    7 < ((vec 254 [0x47, 0x08]).readByte ((vec 254 [0x47, 0x08]).pc.toNat + 1)).toNat := by decide
theorem witness_PrnRuleFromBytes_effect : (vec 254 [0x47, 0x07]).run = .running ∧
    (vec 254 [0x47, 0x07]).readByte (vec 254 [0x47, 0x07]).pc.toNat = 0b01000111 ∧ (vec 254 [0x47, 0x07]).pc.toNat ≤ 254 ∧
    Names ((vec 254 [0x47, 0x07]).readByte ((vec 254 [0x47, 0x07]).pc.toNat + 1)) 7 :=
  ⟨rfl, by decide, by decide, rfl⟩
theorem witness_LdiRuleFromBytes_operand : (vec 254 [0x82, 0x01]).run = .running ∧
    (vec 254 [0x82, 0x01]).readByte (vec 254 [0x82, 0x01]).pc.toNat = 0b10000010 ∧ 254 ≤ (vec 254 [0x82, 0x01]).pc.toNat := by
  decide
theorem witness_LdiRuleFromBytes_register : (vec 253 [0x82, 0x08, 0x07]).run = .running ∧
    (vec 253 [0x82, 0x08, 0x07]).readByte (vec 253 [0x82, 0x08, 0x07]).pc.toNat = 0b10000010 ∧
    (vec 253 [0x82, 0x08, 0x07]).pc.toNat ≤ 253 ∧
    7 < ((vec 253 [0x82, 0x08, 0x07]).readByte ((vec 253 [0x82, 0x08, 0x07]).pc.toNat + 1)).toNat := by decide
theorem witness_LdiRuleFromBytes_effect : (vec 253 [0x82, 0x07, 0x07]).run = .running ∧
    (vec 253 [0x82, 0x07, 0x07]).readByte (vec 253 [0x82, 0x07, 0x07]).pc.toNat = 0b10000010 ∧
    (vec 253 [0x82, 0x07, 0x07]).pc.toNat ≤ 253 ∧
    Names ((vec 253 [0x82, 0x07, 0x07]).readByte ((vec 253 [0x82, 0x07, 0x07]).pc.toNat + 1)) 7 :=
  ⟨rfl, by decide, by decide, rfl⟩

theorem witness_LdiRuleFromBytes_then_prn : (vec 251 [0x82, 0x07, 0xFF, 0x47, 0x07]).run = .running ∧ Names 7 7 ∧
    BytesAt (vec 251 [0x82, 0x07, 0xFF, 0x47, 0x07]) (vec 251 [0x82, 0x07, 0xFF, 0x47, 0x07]).pc.toNat
      [0b10000010, 7, 0xFF, 0b01000111, 7] := ⟨rfl, rfl, by decide, by decide⟩

/-! ### The whole machine -/

/-- A register outside both columns of R14's table for `ADD R0,R1`. -/
theorem witness_RegistersReadAndWrittenAreTheTable : (∃ t, exec (.add 0 1) State.reset = .next t) ∧
    (2 : RegIdx).val ∉ regWrites (.add 0 1) ∧ (2 : RegIdx).val ∉ regReads State.reset.fl (.add 0 1) :=
  ⟨⟨_, rfl⟩, by decide, by decide⟩
/-- A register that is written without being read, in a step that does not fault. -/
theorem witness_RegistersReadAndWrittenAreTheTable_written : (∃ t, exec (.ldi 3 9) State.reset = .next t ∧ t.run ≠ .faulted) ∧
    (3 : RegIdx).val ∈ regWrites (.ldi 3 9) ∧ (3 : RegIdx).val ∉ regReads State.reset.fl (.ldi 3 9) :=
  ⟨⟨_, rfl, by decide⟩, by decide, by decide⟩

theorem witness_FlagsWrittenByCmpReadByJumps_written : ∃ t, stepWith opcodeByte (vec 0 [0xA7, 0x00, 0x01]) = .next t ∧
    t.fl ≠ (vec 0 [0xA7, 0x00, 0x01]).fl := ⟨_, rfl, by decide⟩
/-- A jump, with two flag states that agree on Equal. -/
theorem witness_FlagsWrittenByCmpReadByJumps_read : (∃ t, exec (.jne 2) State.reset = .next t) ∧
    (FlagState.less = .equal ↔ State.reset.fl = .equal) := ⟨⟨_, rfl⟩, by decide⟩

theorem witness_OnlyPushAndCallWriteMemory : ∃ t, stepWith opcodeByte (vec 0 [0x45, 0x07]) = .next t ∧
    t.readByte 243 ≠ (vec 0 [0x45, 0x07]).readByte 243 := ⟨_, rfl, by decide⟩

theorem witness_OnlyPrnProducesOutput : ∃ t, stepWith opcodeByte (vec 0 [0x47, 0x07]) = .next t ∧
    t.out ≠ (vec 0 [0x47, 0x07]).out := ⟨_, rfl, by decide⟩

/-- A state with the invariant that is not the reset state: a PUSH is about to run. -/
theorem inv_of_vec : ((vec 0 [0x45, 0x07]).writeReg 7 1).Inv := ⟨by decide, by decide, by decide, by intro f hf; cases hf⟩

/-- A faulted state with the invariant. -/
theorem inv_of_faulted : ((vec 7 [0x83]).raise (.unknownOpcode 0x83)).Inv :=
  ⟨by decide, by decide, by decide, by intro f hf; cases hf; exact ⟨rfl, by decide⟩⟩

theorem witness_InvariantKeptByEveryStep : ((vec 0 [0x45, 0x07]).writeReg 7 1).Inv ∧
    ∃ t, stepWith opcodeByte ((vec 0 [0x45, 0x07]).writeReg 7 1) = .next t := ⟨inv_of_vec, _, rfl⟩

theorem witness_InvariantHoldsAfterReset : (bootWith 0x00 .less [0xFF]).isSome = true := rfl

theorem witness_RunsKeepTheInvariantAndTheOutput : ((vec 0 [0x45, 0x07]).writeReg 7 1).Inv ∧
    ∃ t, core.run 1 ((vec 0 [0x45, 0x07]).writeReg 7 1) = .next t := ⟨inv_of_vec, _, rfl⟩

/-! ### Two instructions together -/

/-- PUSH R1 then POP R2 at 0, with the stack pointer at its lowest legal value outside the POP's bytes. -/
theorem witness_PushThenPopPreservesTheValue :
    let s := (vec 0 [0x45, 0x01, 0x46, 0x02]).writeReg 7 1
    s.run = .running ∧ BytesAt s s.pc.toNat (encode opcodeByte (.push 1) ++ encode opcodeByte (.pop 2)) ∧ Names 1 1 ∧
      Names 2 2 ∧ (1 : RegIdx) ≠ 7 ∧ (2 : RegIdx) ≠ 7 ∧ s.sp ≠ 0 ∧ s.sp.toNat - 1 ≠ s.pc.toNat + 2 ∧
      s.sp.toNat - 1 ≠ s.pc.toNat + 3 :=
  ⟨rfl, ⟨by decide, by decide⟩, rfl, rfl, by decide, by decide, by decide, by decide, by decide⟩

/-- The subroutine is empty: RET runs in the very state CALL left. -/
theorem witness_RetReturnsBehindTheCall : Names 1 1 ∧ (vec 253 [0x50, 0x01]).pc.toNat + 2 ≤ 255 ∧
    (vec 253 [0x50, 0x01]).sp ≠ 0 ∧ ∃ t, exec (.call 1) (vec 253 [0x50, 0x01]) = .next t :=
  ⟨rfl, by decide, by decide, _, rfl⟩

theorem witness_CompareThenJump : Names 0 0 ∧ Names 1 1 ∧ Names 1 1 ∧ (vec 255 []).pc.toNat ≤ 255 ∧
    ∃ t, exec (.cmp 0 1) (vec 255 []) = .next t := ⟨rfl, rfl, rfl, by decide, _, rfl⟩

theorem witness_PushedByteIsTheNextOpcode :
    let s := ((vec 0 [0x45, 0x01]).writeReg 1 0x01).writeReg 7 3
    s.run = .running ∧ BytesAt s s.pc.toNat (encode opcodeByte (.push 1)) ∧ Names 1 1 ∧ (1 : RegIdx) ≠ 7 ∧
      s.readReg 1 = opcodeByte .hlt ∧ s.sp.toNat = s.pc.toNat + 3 :=
  ⟨rfl, ⟨by decide, by decide⟩, rfl, by decide, by decide, by decide⟩

theorem witness_JumpToItselfNeverEnds :
    let s := (vec 19 [0x54, 0x02]).writeReg 2 19
    s.run = .running ∧ BytesAt s s.pc.toNat (encode opcodeByte (.jmp 2)) ∧ Names 2 2 ∧ (s.readReg 2).toNat = s.pc.toNat :=
  ⟨rfl, ⟨by decide, by decide⟩, rfl, by decide⟩

/-! ### The exit status, in a state of each kind -/

theorem witness_ExitStatusIsZeroExactlyOnHalt_running : ((vec 0 [0x45, 0x07]).writeReg 7 1).Inv ∧
    ((vec 0 [0x45, 0x07]).writeReg 7 1).exitStatus = none := ⟨inv_of_vec, rfl⟩
theorem witness_ExitStatusIsZeroExactlyOnHalt_halted : (vec 255 [0x01]).halt.Inv ∧
    (vec 255 [0x01]).halt.exitStatus = some 0 := ⟨⟨by decide, by decide, by decide, by intro f hf; cases hf⟩, rfl⟩
theorem witness_ExitStatusIsZeroExactlyOnHalt_faulted : ((vec 7 [0x83]).raise (.unknownOpcode 0x83)).Inv ∧
    ((vec 7 [0x83]).raise (.unknownOpcode 0x83)).exitStatus = some 1 := ⟨inv_of_faulted, rfl⟩

end Sys2Proof.Tests
end

section
/-! Proofs of the state family (10_state.md): the invariant. What an effect does to each part of the state it speaks of,
what taking a fault does to it, and the two statements. -/

namespace Sys2Proof.Machine

variable {opc : OpcodeMap} {s t : State} {i : Instr} {c : Cause}

/-! ### What an effect does to memory, the pc, the run state and the fault record -/

/-- Only PUSH and CALL write memory, at an address that is a byte. -/
theorem Effect.mem_wf (he : Effect s i t) (h : s.mem.wf = true) : t.mem.wf = true := by
  cases he with
  | push | call => exact Memory.wf_write _ (BitVec.isLt _) h
  | jeq | jne => split <;> exact h
  | _ => exact h

theorem State.advance_pc_le (h : s.pc.toNat ≤ 255) {n : Nat} (hn : n ≤ 3) : (s.advance n).pc.toNat ≤ 258 := by
  rw [State.advance_pc_toNat (by omega) hn]
  omega

theorem State.jumpTo_pc_le (s : State) (v : Byte) : (s.jumpTo v).pc.toNat ≤ 258 := by
  rw [State.jumpTo_pc, zext9_toNat]
  omega

/-- The pc of an instruction that was fetched is in memory, so moving on stays within 258, and a jump's target is a byte. -/
theorem Effect.pc_le (he : Effect s i t) (h : s.pc.toNat ≤ 255) : t.pc.toNat ≤ 258 := by
  cases he with
  | hlt => exact Nat.le_trans h (by decide)
  | ldi | prn | add | mul | cmp | push | pop => exact State.advance_pc_le h (by decide)
  | call | ret | jmp => exact State.jumpTo_pc_le _ _
  | jeq =>
    split
    · exact State.jumpTo_pc_le _ _
    · exact State.advance_pc_le h (by decide)
  | jne =>
    split
    · exact State.advance_pc_le h (by decide)
    · exact State.jumpTo_pc_le _ _

theorem Effect.fault_eq (he : Effect s i t) : t.fault = s.fault := by
  cases he with
  | jeq | jne => split <;> rfl
  | _ => rfl

/-- An effect leaves the run state alone, but for HLT's. -/
theorem Effect.run_eq (he : Effect s i t) : t.run = if i = .hlt then .halted else s.run := by
  cases he with
  | jeq | jne => split <;> rfl
  | _ => rfl

/-! ### The causes a step can raise (R173) -/

theorem HandlerFault.cause_ne (hf : HandlerFault s i c) : c ≠ .unsupportedALUOperation := by
  cases hf <;> exact Cause.noConfusion

theorem FetchFault.cause_ne (hf : FetchFault opc s c) : c ≠ .unsupportedALUOperation := by
  cases hf <;> exact Cause.noConfusion

/-! ### The invariant is kept -/

/-- While the run state is not faulted there is no fault record (R24). -/
theorem State.Inv.fault_eq_none (hs : s.Inv) (hr : s.run ≠ .faulted) : s.fault = none := by
  rw [← Option.not_isSome_iff_eq_none, hs.fault_iff]
  exact hr

/-- A state whose run state is not faulted and that has no record meets the record's half of the invariant. -/
theorem State.Inv.of_no_fault (hm : s.mem.wf = true) (hpc : s.pc.toNat ≤ 258) (hf : s.fault = none)
    (hr : s.run ≠ .faulted) : s.Inv where
  mem_wf := hm
  pc_le := hpc
  fault_iff := by simp [hf, hr]
  fault_pc := by simp [hf]

/-- Taking a fault keeps the invariant, whatever the run state was (R176, R178). -/
theorem State.Inv.raise (hs : s.Inv) (hc : c ≠ .unsupportedALUOperation) : (s.raise c).Inv where
  mem_wf := hs.mem_wf
  pc_le := hs.pc_le
  fault_iff := by simp
  fault_pc := by simpa using hc

/-- The effect of an instruction fetched in a running state keeps the invariant. -/
theorem State.Inv.effect (hs : s.Inv) (hr : s.run = .running) (hpc : s.pc.toNat ≤ 255) (he : Effect s i t) : t.Inv := by
  refine .of_no_fault (he.mem_wf hs.mem_wf) (he.pc_le hpc) ?_ ?_
  · rw [he.fault_eq, hs.fault_eq_none (by simp [hr])]
  · rw [he.run_eq, hr]
    split <;> exact RunState.noConfusion

/-- Settles O47: a step is an effect of the fetched instruction or a fault, and each keeps the invariant. -/
theorem invariantKeptByEveryStep : Obligations.InvariantKeptByEveryStep := by
  intro opc s t hs h
  obtain ⟨hr, ⟨i, hi, he | ⟨c, rfl, hf⟩⟩ | ⟨c, rfl, hf⟩⟩ := stepWith_next h
  · exact hs.effect hr (Nat.le_trans (Nat.le_add_right _ _) hi.pc_le) he
  · exact hs.raise hf.cause_ne
  · exact hs.raise hf.cause_ne

end Sys2Proof.Machine
end

section
/-! Proofs of the state family (10_state.md): reset and load, and the step around the handler. -/

namespace Sys2Proof.Machine

variable {opc : OpcodeMap} {s : State}

/-- Loading answers a state exactly when the image fits, and then the reset state with the image in memory (R150, R151). -/
theorem bootWith_eq_some {sp : Byte} {fl : FlagState} {image : List Byte} :
    bootWith sp fl image = some s ↔
      image.length ≤ 256 ∧ { State.resetWith sp fl with mem := Memory.storeAt [] 0 image } = s := by
  simp only [bootWith, Option.ite_none_right_eq_some, Option.some.injEq]

/-- With the empty image, reset and load are reset alone. -/
theorem boot_nil : boot [] = some State.reset := rfl

/-- With a stack pointer of 0, reset clears every register. -/
theorem State.resetWith_zero_readReg (fl : FlagState) (k : RegIdx) : (State.resetWith 0 fl).readReg k = 0 := by
  fin_cases k <;> rfl

/-- Reset clears every register but the stack pointer (R200). -/
theorem State.resetWith_readReg (sp : Byte) (fl : FlagState) {k : RegIdx} (hk : k ≠ 7) :
    (State.resetWith sp fl).readReg k = 0 :=
  calc (State.resetWith sp fl).readReg k
    _ = ((State.resetWith 0 fl).writeReg 7 sp).readReg k := rfl
    _ = (State.resetWith 0 fl).readReg k := by rw [State.writeReg_readReg, if_neg hk]
    _ = 0 := State.resetWith_zero_readReg fl k

/-- Settles O10: each value is a field of the state that `bootWith_eq_some` names. -/
theorem resetLeavesTheseValues : Obligations.ResetLeavesTheseValues := by
  refine ⟨fun sp fl image s h => ?_, boot_nil, rfl, rfl⟩
  obtain ⟨-, rfl⟩ := bootWith_eq_some.mp h
  exact ⟨fun k hk => State.resetWith_readReg sp fl hk, rfl, rfl, rfl, rfl, rfl, rfl⟩

/-- Every state that reset and load give has the invariant: the image is placed byte by byte, which keeps memory canonical. -/
theorem State.Inv.of_bootWith {sp : Byte} {fl : FlagState} {image : List Byte} (h : bootWith sp fl image = some s) :
    s.Inv := by
  obtain ⟨-, rfl⟩ := bootWith_eq_some.mp h
  exact .of_no_fault (Memory.wf_storeAt 0 image Memory.wf_nil) (Nat.zero_le _) rfl RunState.noConfusion

/-- Settles O48: `State.reset` is what the empty image gives. -/
theorem invariantHoldsAfterReset : Obligations.InvariantHoldsAfterReset :=
  ⟨.of_bootWith boot_nil, fun _ _ _ _ => .of_bootWith⟩

/-- Bytes at the pc that decode are the instruction fetched. -/
theorem fetchInstr_of_decode {i : Instr} {rest : List Byte} (h : decode opc s.fetchBytes = .ok (i, rest)) :
    fetchInstr opc s = .ok i := by
  simp only [fetchInstr, h]

/-- A running machine's step is the handler of the instruction it fetched, with nothing around it (R16, R77). -/
theorem stepWith_of_fetchInstr {i : Instr} (hr : s.run = .running) (h : fetchInstr opc s = .ok i) :
    stepWith opc s = exec i s := by
  simp only [stepWith, hr, h]

/-- Settles O12, for the default assignment. -/
theorem stepRunsTheDecodedInstruction : Obligations.StepRunsTheDecodedInstruction :=
  fun _ _ _ hr h => stepWith_of_fetchInstr hr (fetchInstr_of_decode h)

end Sys2Proof.Machine
end

section
/-! A meaning is its effect or its fault, read from the instruction: the converse of `exec_next`. -/

namespace Sys2Proof.Machine

variable {s t : State} {i : Instr} {c : Cause} {a b r q : Byte}

/-- An operand that names a register passes the check with it. -/
theorem withReg_names {i : RegIdx} (h : r.toNat = i) (s : State) (k : RegIdx → Result) : withReg r s k = k i := by
  simp only [withReg_valid (h ▸ i.isLt), h]

theorem withRegs_names {i j : RegIdx} (hi : a.toNat = i) (hj : b.toNat = j) (s : State) (k : RegIdx → RegIdx → Result) :
    withRegs a b s k = k i j := by
  rw [withRegs, withReg_names hi, withReg_names hj]

/-- Where an effect's conditions hold, the meaning answers its state. -/
theorem exec_of_effect (he : Effect s i t) : exec i s = .next t := by
  cases he with
  | hlt => exact exec_hlt s
  | ldi r imm i h => exact withReg_names h s _
  | prn r i h => exact withReg_names h s _
  | add a b i j hi hj => exact (withRegs_names hi hj s _).trans (by rw [aluByte_add])
  | mul a b i j hi hj => exact (withRegs_names hi hj s _).trans (by rw [aluByte_mul])
  | cmp a b i j hi hj => exact withRegs_names hi hj s _
  | push r i h hs => exact (withReg_names h s _).trans (withPushRoom_room hs _)
  | pop r i h hs => exact (withReg_names h s _).trans (withPopRoom_room hs _)
  | call r i h hpc hs =>
    exact (withReg_names h s _).trans ((withReturnAddress_fits hpc _).trans (withPushRoom_room hs _))
  | ret hs => exact exec_ret hs
  | jmp r i h => exact withReg_names h s _
  | jeq r i h => simp only [exec_jeq (h ▸ i.isLt), h]
  | jne r i h => simp only [exec_jne (h ▸ i.isLt), h]

/-- A one-register meaning with a bad register takes the index fault. -/
theorem oneReg_fails {k : RegIdx → Result} (he : exec i s = withReg r s k) (hi : i.registerOperands = [r])
    (h : i.firstBadRegister = some q) : exec i s = fails s (.outOfBoundsAccess .registerIndex q.toNat) := by
  obtain ⟨hq, rfl⟩ : 8 ≤ r.toNat ∧ r = q := by simpa [Instr.firstBadRegister, hi, validRegister] using h
  rw [he, withReg_invalid hq]

/-- A two-register meaning with a bad register takes the index fault, for the first bad one. -/
theorem twoRegs_fails {k : RegIdx → RegIdx → Result} (he : exec i s = withRegs a b s k)
    (hi : i.registerOperands = [a, b]) (h : i.firstBadRegister = some q) :
    exec i s = fails s (.outOfBoundsAccess .registerIndex q.toNat) := by
  by_cases ha : a.toNat < 8
  · obtain ⟨hq, rfl⟩ : 8 ≤ b.toNat ∧ b = q := by simpa [Instr.firstBadRegister, hi, validRegister, ha] using h
    rw [he, withRegs, withReg_valid ha, withReg_invalid hq]
  · rw [firstBad_fst hi (by omega)] at h
    cases h
    rw [he, withRegs, withReg_invalid (by omega)]

/-- R76: an instruction with a bad register operand takes the index fault, for the first bad one in byte order. -/
theorem exec_of_firstBadRegister (h : i.firstBadRegister = some q) (s : State) :
    exec i s = fails s (.outOfBoundsAccess .registerIndex q.toNat) := by
  cases i with
  | hlt | ret => cases h
  | add | mul | cmp => exact twoRegs_fails rfl rfl h
  | _ => exact oneReg_fails rfl rfl h

/-- Where a handler fault's condition holds, the meaning takes that fault. -/
theorem exec_of_handlerFault (hf : HandlerFault s i c) : exec i s = fails s c := by
  cases hf with
  | register i r h => exact exec_of_firstBadRegister h s
  | returnAddress r hr h => exact (withReg_valid hr s _).trans (withReturnAddress_over h _)
  | pushFull r hr h => exact (withReg_valid hr s _).trans (withPushRoom_full h _)
  | callFull r hr hpc h =>
    exact (withReg_valid hr s _).trans ((withReturnAddress_fits hpc _).trans (withPushRoom_full h _))
  | popFull r i hr h => exact (withReg_names hr s _).trans (withPopRoom_full h _)
  | retFull h => exact withPopRoom_full h _

end Sys2Proof.Machine
end

section
/-! Proofs of the state family (10_state.md): which instruction writes and which depends on the flags (R21). Setting the
flags before an instruction that cannot tell them apart is setting them after it, unless it writes them itself. -/

namespace Sys2Proof.Machine

variable {opc : OpcodeMap} {s t : State} {i : Instr} {c : Cause}

/-- R21's reading of the flags: only JEQ and JNE depend on them, and only on whether Equal is set. -/
theorem Effect.setFlags {f : FlagState} (he : Effect s i t)
    (hf : (i.mnemonic ≠ .jeq ∧ i.mnemonic ≠ .jne) ∨ (f = .equal ↔ s.fl = .equal)) :
    Effect (s.setFlags f) i (if i.mnemonic = .cmp then t else t.setFlags f) := by
  cases he with
  | hlt => exact .hlt
  | ldi r imm i h => exact .ldi r imm i h
  | prn r i h => exact .prn r i h
  | add a b i j hi hj => exact .add a b i j hi hj
  | mul a b i j hi hj => exact .mul a b i j hi hj
  | cmp a b i j hi hj => exact .cmp a b i j hi hj
  | push r i h hs => exact .push r i h hs
  | pop r i h hs => exact .pop r i h hs
  | call r i h hpc hs => exact .call r i h hpc hs
  | ret hs => exact .ret hs
  | jmp r i h => exact .jmp r i h
  | jeq r i h =>
    have hfl : (s.setFlags f).fl = .equal ↔ s.fl = .equal := by simpa [Instr.mnemonic] using hf
    rw [if_neg Mnemonic.noConfusion, apply_ite (State.setFlags · f), ← if_congr hfl rfl rfl]
    exact .jeq r i h
  | jne r i h =>
    have hfl : (s.setFlags f).fl = .equal ↔ s.fl = .equal := by simpa [Instr.mnemonic] using hf
    rw [if_neg Mnemonic.noConfusion, apply_ite (State.setFlags · f), ← if_congr hfl rfl rfl]
    exact .jne r i h

theorem HandlerFault.setFlags (hf : HandlerFault s i c) (f : FlagState) : HandlerFault (s.setFlags f) i c := by
  cases hf with
  | register i r h => exact .register i r h
  | returnAddress r hr h => exact .returnAddress r hr h
  | pushFull r hr h => exact .pushFull r hr h
  | callFull r hr hpc h => exact .callFull r hr hpc h
  | popFull r i hr h => exact .popFull r i hr h
  | retFull h => exact .retFull h

theorem State.sameButFlags_setFlags (t : State) (f : FlagState) : SameButFlags t (t.setFlags f) :=
  ⟨rfl, rfl, rfl, rfl, rfl, rfl⟩

theorem sameButFlags_refl (t : State) : SameButFlags t t := ⟨rfl, rfl, rfl, rfl, rfl, rfl⟩

/-- With other flags that the instruction cannot tell apart, a meaning answers the same but for the flags (R21). -/
theorem exec_setFlags {f : FlagState} (h : exec i s = .next t)
    (hf : (i.mnemonic ≠ .jeq ∧ i.mnemonic ≠ .jne) ∨ (f = .equal ↔ s.fl = .equal)) :
    ∃ u, exec i (s.setFlags f) = .next u ∧ SameButFlags t u := by
  obtain he | ⟨c, rfl, hc⟩ := exec_next h
  · refine ⟨_, exec_of_effect (he.setFlags hf), ?_⟩
    split
    · exact sameButFlags_refl t
    · exact t.sameButFlags_setFlags f
  · exact ⟨_, exec_of_handlerFault (hc.setFlags f), (s.raise c).sameButFlags_setFlags f⟩

/-- CMP is the only instruction whose effect changes the flags (R21). -/
theorem Effect.fl_eq (he : Effect s i t) (hi : i.mnemonic ≠ .cmp) : t.fl = s.fl := by
  cases he with
  | cmp => exact absurd rfl hi
  | jeq | jne => split <;> rfl
  | _ => rfl

/-- The instruction fetched is the one whose opcode byte stands at the pc (R74). -/
theorem Fetched.opcodeAtPc (hf : Fetched opc s i) : OpcodeAtPc opc s i.mnemonic :=
  ⟨Nat.le_trans (Nat.le_add_right _ _) hf.pc_le, (opcode_of_lookup hf.lookup).symm⟩

/-- A step that changes the flags fetched CMP's opcode: a fault changes none. -/
theorem opcodeAtPc_cmp_of_fl_ne (h : stepWith opc s = .next t) (hfl : t.fl ≠ s.fl) : OpcodeAtPc opc s .cmp := by
  obtain ⟨-, ⟨i, hi, he | ⟨c, rfl, -⟩⟩ | ⟨c, rfl, -⟩⟩ := stepWith_next h
  · have hm : i.mnemonic = .cmp := by_contra fun hne => hfl (he.fl_eq hne)
    exact hm ▸ hi.opcodeAtPc
  · exact absurd rfl hfl
  · exact absurd rfl hfl

/-- Settles O44: the writers by `Effect.fl_eq`, the readers by `Effect.setFlags`. -/
theorem flagsWrittenByCmpReadByJumps : Obligations.FlagsWrittenByCmpReadByJumps :=
  ⟨fun _ _ _ _ h hfl => opcodeAtPc_cmp_of_fl_ne h hfl, fun _ _ _ _ h hf => exec_setFlags h hf⟩

end Sys2Proof.Machine
end

section
/-! Proofs of the state family (10_state.md): which instruction writes and which depends on a register (R14). Writing a
register before an instruction that does not read it is writing it after, unless the instruction writes it itself. -/

namespace Sys2Proof.Machine

variable {s t : State} {i : Instr} {c : Cause}

theorem ne_of_not_mem_columns {k i : RegIdx} {column : List Nat} (hk : k.val ∉ column) (hi : i.val ∈ column) : k ≠ i :=
  fun e => hk (e ▸ hi)

/-- A register outside the "Writes" column keeps its value. -/
theorem Effect.readReg_eq (he : Effect s i t) {k : RegIdx} (hk : k.val ∉ regWrites i) : t.readReg k = s.readReg k := by
  have ne {j : RegIdx} (hj : j.val ∈ regWrites i) : k ≠ j := ne_of_not_mem_columns hk hj
  cases he with
  | hlt | prn | cmp | jmp => rfl
  | jeq | jne => split <;> rfl
  | ldi r imm i h => simp [ne (j := i) (by simp [regWrites, h])]
  | add a b i j hi hj => simp [ne (j := i) (by simp [regWrites, hi])]
  | mul a b i j hi hj => simp [ne (j := i) (by simp [regWrites, hi])]
  | push | call | ret => simp [ne (j := 7) (by simp [regWrites])]
  | pop r i h => simp [ne (j := i) (by simp [regWrites, h]), ne (j := 7) (by simp [regWrites])]

/-! A register write commutes with each operation that does not touch the register. -/

section
variable (s : State) {k l : RegIdx} (v : Byte)

theorem State.writeReg_writeReg_same (w : Byte) : (s.writeReg k v).writeReg k w = s.writeReg k w := by
  simp [State.writeReg]

theorem State.writeReg_comm (h : k ≠ l) (w : Byte) :
    (s.writeReg k v).writeReg l w = (s.writeReg l w).writeReg k v := by
  simp [State.writeReg, Vector.set_comm _ _ (Fin.val_ne_of_ne h)]

theorem State.writeReg_readReg_ne (h : k ≠ l) : (s.writeReg k v).readReg l = s.readReg l := by
  rw [State.writeReg_readReg, if_neg h.symm]

theorem State.writeReg_sp_ne (h : k ≠ 7) : (s.writeReg k v).sp = s.sp := s.writeReg_readReg_ne v h

theorem State.writeReg_top (h : k ≠ 7) : (s.writeReg k v).top = s.top := by
  simp only [State.top, s.writeReg_sp_ne v h, State.writeReg_readByte]

/-- The stack pointer that POP checks (R116). -/
theorem State.writeReg_popped_sp (h : k ≠ 7) :
    ((s.writeReg k v).writeReg l (s.writeReg k v).top).sp = (s.writeReg l s.top).sp := by
  simp only [s.writeReg_top v h, State.writeReg_sp, if_neg h]

theorem State.writeReg_setSp (h : k ≠ 7) (w : Byte) : (s.writeReg k v).setSp w = (s.setSp w).writeReg k v :=
  s.writeReg_comm v h w

theorem State.writeReg_raiseSp (h : k ≠ 7) : (s.writeReg k v).raiseSp = s.raiseSp.writeReg k v := by
  rw [State.raiseSp, s.writeReg_sp_ne v h, s.writeReg_setSp v h, State.raiseSp]

theorem State.writeReg_storeTop (h : k ≠ 7) (w : Byte) : (s.writeReg k v).storeTop w = (s.storeTop w).writeReg k v := by
  rw [State.storeTop, s.writeReg_sp_ne v h]
  rfl

end

/-- R14's two columns at once: a register that the instruction does not read may be written before it; the write is lost
if the instruction writes the register, and else is seen after it. -/
theorem Effect.writeReg_unread (he : Effect s i t) {k : RegIdx} (hk : k.val ∉ regReads s.fl i) (v : Byte) :
    Effect (s.writeReg k v) i (if k.val ∈ regWrites i then t else t.writeReg k v) := by
  have ne {j : RegIdx} (hj : j.val ∈ regReads s.fl i) : k ≠ j := ne_of_not_mem_columns hk hj
  cases he with
  | hlt => exact .hlt
  | ldi r imm i h =>
    have he := Effect.ldi (s := s.writeReg k v) r imm i h
    by_cases hki : k = i
    · subst hki
      rw [if_pos (by simp [regWrites, h])]
      rwa [s.writeReg_writeReg_same v] at he
    · rw [if_neg (by simpa [regWrites, h, ← Fin.ext_iff] using hki)]
      rwa [s.writeReg_comm v hki] at he
  | prn r i h =>
    have he := Effect.prn (s := s.writeReg k v) r i h
    rwa [s.writeReg_readReg_ne v (ne (by simp [regReads, h]))] at he
  | add a b i j hi hj =>
    have hki : k ≠ i := ne (by simp [regReads, hi])
    have he := Effect.add (s := s.writeReg k v) a b i j hi hj
    rw [if_neg (by simpa [regWrites, hi, ← Fin.ext_iff] using hki)]
    rwa [s.writeReg_readReg_ne v hki, s.writeReg_readReg_ne v (ne (by simp [regReads, hj])),
      s.writeReg_comm v hki] at he
  | mul a b i j hi hj =>
    have hki : k ≠ i := ne (by simp [regReads, hi])
    have he := Effect.mul (s := s.writeReg k v) a b i j hi hj
    rw [if_neg (by simpa [regWrites, hi, ← Fin.ext_iff] using hki)]
    rwa [s.writeReg_readReg_ne v hki, s.writeReg_readReg_ne v (ne (by simp [regReads, hj])),
      s.writeReg_comm v hki] at he
  | cmp a b i j hi hj =>
    have he := Effect.cmp (s := s.writeReg k v) a b i j hi hj
    rwa [s.writeReg_readReg_ne v (ne (by simp [regReads, hi])),
      s.writeReg_readReg_ne v (ne (by simp [regReads, hj]))] at he
  | push r i h hs =>
    have hk7 : k ≠ 7 := ne (by simp [regReads])
    have he := Effect.push (s := s.writeReg k v) r i h (by rwa [s.writeReg_sp_ne v hk7])
    rw [if_neg (by simpa [regWrites] using Fin.val_ne_of_ne hk7)]
    rwa [s.writeReg_sp_ne v hk7, s.writeReg_setSp v hk7, State.writeReg_readReg_ne _ v (ne (by simp [regReads, h])),
      State.writeReg_storeTop _ v hk7] at he
  | pop r i h hs =>
    have hk7 : k ≠ 7 := ne (by simp [regReads])
    have he := Effect.pop (s := s.writeReg k v) r i h (by rwa [s.writeReg_popped_sp v hk7])
    rw [s.writeReg_top v hk7] at he
    by_cases hki : k = i
    · subst hki
      rw [if_pos (by simp [regWrites, h])]
      rwa [s.writeReg_writeReg_same v] at he
    · rw [if_neg (by simpa [regWrites, h, ← Fin.ext_iff, hki] using Fin.val_ne_of_ne hk7)]
      rwa [s.writeReg_comm v hki, State.writeReg_raiseSp _ v hk7] at he
  | call r i h hpc hs =>
    have hk7 : k ≠ 7 := ne (by simp [regReads])
    have he := Effect.call (s := s.writeReg k v) r i h hpc (by rwa [s.writeReg_sp_ne v hk7])
    rw [if_neg (by simpa [regWrites] using Fin.val_ne_of_ne hk7)]
    rwa [s.writeReg_sp_ne v hk7, s.writeReg_setSp v hk7, State.writeReg_readReg_ne _ v (ne (by simp [regReads, h])),
      State.writeReg_storeTop _ v hk7] at he
  | ret hs =>
    have hk7 : k ≠ 7 := ne (by simp [regReads])
    have he := Effect.ret (s := s.writeReg k v) (by rwa [s.writeReg_sp_ne v hk7])
    rw [if_neg (by simpa [regWrites] using Fin.val_ne_of_ne hk7)]
    rwa [s.writeReg_raiseSp v hk7, s.writeReg_top v hk7] at he
  | jmp r i h =>
    have he := Effect.jmp (s := s.writeReg k v) r i h
    rwa [s.writeReg_readReg_ne v (ne (by simp [regReads, h]))] at he
  | jeq r i h =>
    have he := Effect.jeq (s := s.writeReg k v) r i h
    by_cases hfl : s.fl = .equal
    · rw [if_pos hfl]
      rwa [State.writeReg_fl, if_pos hfl, s.writeReg_readReg_ne v (ne (by simp [regReads, h, hfl]))] at he
    · rw [if_neg hfl]
      rwa [State.writeReg_fl, if_neg hfl] at he
  | jne r i h =>
    have he := Effect.jne (s := s.writeReg k v) r i h
    by_cases hfl : s.fl = .equal
    · rw [if_pos hfl]
      rwa [State.writeReg_fl, if_pos hfl] at he
    · rw [if_neg hfl]
      rwa [State.writeReg_fl, if_neg hfl, s.writeReg_readReg_ne v (ne (by simp [regReads, h, hfl]))] at he

/-- Whether a handler faults, and with which cause, is decided without the registers outside the "Reads" column. -/
theorem HandlerFault.writeReg_unread (hf : HandlerFault s i c) {k : RegIdx} (hk : k.val ∉ regReads s.fl i) (v : Byte) :
    HandlerFault (s.writeReg k v) i c := by
  have ne {j : RegIdx} (hj : j.val ∈ regReads s.fl i) : k ≠ j := ne_of_not_mem_columns hk hj
  cases hf with
  | register i r h => exact .register i r h
  | returnAddress r hr h => exact .returnAddress r hr h
  | pushFull r hr h => exact .pushFull r hr (by rwa [s.writeReg_sp_ne v (ne (by simp [regReads]))])
  | callFull r hr hpc h => exact .callFull r hr hpc (by rwa [s.writeReg_sp_ne v (ne (by simp [regReads]))])
  | popFull r i hr h =>
    exact .popFull r i hr (by rwa [s.writeReg_popped_sp v (ne (by simp [regReads]))])
  | retFull h => exact .retFull (by rwa [s.writeReg_sp_ne v (ne (by simp [regReads]))])

theorem sameButRegs_refl (t : State) : SameButRegs t t := ⟨rfl, rfl, rfl, rfl, rfl, rfl⟩

theorem State.sameButRegs_writeReg (t : State) (k : RegIdx) (v : Byte) : SameButRegs t (t.writeReg k v) :=
  ⟨rfl, rfl, rfl, rfl, rfl, rfl⟩

theorem State.sameRegsBut_writeReg (t : State) (k : RegIdx) (v : Byte) : SameRegsBut [k] t (t.writeReg k v) :=
  fun l hl => by rw [State.writeReg_readReg, if_neg (by simpa using hl)]

/-- A meaning writes no register outside the "Writes" column, by a fault neither. -/
theorem exec_readReg_eq (h : exec i s = .next t) {k : RegIdx} (hk : k.val ∉ regWrites i) : t.readReg k = s.readReg k := by
  obtain he | ⟨c, rfl, -⟩ := exec_next h
  · exact he.readReg_eq hk
  · rfl

/-- With any other value in a register outside the "Reads" column, a meaning answers the same but for that register. -/
theorem exec_writeReg_unread (h : exec i s = .next t) {k : RegIdx} (hk : k.val ∉ regReads s.fl i) (v : Byte) :
    ∃ u, exec i (s.writeReg k v) = .next u ∧ SameButRegs t u ∧ SameRegsBut [k] t u ∧
      (k.val ∈ regWrites i → t.run ≠ .faulted → u.readReg k = t.readReg k) := by
  obtain he | ⟨c, rfl, hf⟩ := exec_next h
  · refine ⟨_, exec_of_effect (he.writeReg_unread hk v), ?_⟩
    by_cases hw : k.val ∈ regWrites i
    · rw [if_pos hw]
      exact ⟨sameButRegs_refl t, fun _ _ => rfl, fun _ _ => rfl⟩
    · rw [if_neg hw]
      exact ⟨t.sameButRegs_writeReg k v, t.sameRegsBut_writeReg k v, fun hw' => absurd hw' hw⟩
  · exact ⟨_, exec_of_handlerFault (hf.writeReg_unread hk v), (s.raise c).sameButRegs_writeReg k v,
      (s.raise c).sameRegsBut_writeReg k v, fun _ hr => absurd rfl hr⟩

/-- Settles O43: the "Writes" column by `Effect.readReg_eq`, the "Reads" column by `Effect.writeReg_unread`. -/
theorem registersReadAndWrittenAreTheTable : Obligations.RegistersReadAndWrittenAreTheTable :=
  fun _ _ _ h _ => ⟨exec_readReg_eq h, exec_writeReg_unread h⟩

end Sys2Proof.Machine
end

section
/-! Proofs of the memory family (20_memory.md): the laws of a read after a write, and the canonical form, in which what
is read fixes the data. -/

namespace Sys2Proof.Machine

/-- Settles O7, by the law of `State.writeByte_readByte`. -/
theorem readAfterWrite : Obligations.ReadAfterWrite := by
  intro s a v
  refine ⟨?_, fun b hb => ?_⟩
  · rw [State.writeByte_readByte, if_pos rfl]
  · rw [State.writeByte_readByte, if_neg hb]

namespace Memory

variable {lo lo' k l a : Nat} {v w : Byte} {m n : Memory}

theorem wfFrom_cons :
    wfFrom lo ((k, v) :: m) = true ↔ lo ≤ k ∧ k < 256 ∧ v ≠ 0 ∧ wfFrom (k + 1) m = true := by
  simp only [wfFrom, Bool.and_eq_true, decide_eq_true_eq, and_assoc]
  rfl

theorem read_cons_self (k : Nat) (v : Byte) (m : Memory) : read ((k, v) :: m) k = v := by
  rw [read_cons, if_pos rfl]

/-- The first address a canonical memory lists does not read as 0, so a memory that reads the same there lists an address
no later. -/
theorem not_wfFrom_above_head (hm : wfFrom lo ((k, v) :: m) = true)
    (h : ∀ a, a < 256 → read ((k, v) :: m) a = n.read a) : ¬ wfFrom (k + 1) n = true := by
  intro hn
  obtain ⟨-, hk, hv, -⟩ := wfFrom_cons.mp hm
  apply hv
  calc v = read ((k, v) :: m) k := (read_cons_self k v m).symm
    _ = n.read k := h k hk
    _ = 0 := read_below hn k.lt_succ_self

theorem head_le_head (hm : wfFrom lo ((k, v) :: m) = true) (hn : wfFrom lo' ((l, w) :: n) = true)
    (h : ∀ a, a < 256 → read ((k, v) :: m) a = read ((l, w) :: n) a) : l ≤ k := by
  obtain ⟨-, hn⟩ := wfFrom_cons.mp hn
  exact Nat.le_of_not_lt fun hkl => not_wfFrom_above_head hm h (wfFrom_cons.mpr ⟨hkl, hn⟩)

/-- Canonical tails behind one common address read the same when the whole memories do: up to that address both read 0. -/
theorem read_tail_eq (hm : wfFrom (k + 1) m = true) (hn : wfFrom (k + 1) n = true)
    (h : read ((k, v) :: m) a = read ((k, w) :: n) a) : m.read a = n.read a := by
  by_cases hak : a < k + 1
  · rw [read_below hm hak, read_below hn hak]
  · rwa [read_cons, read_cons, if_neg (by omega), if_neg (by omega)] at h

/-- In canonical form, memories that read the same are the same list, cell by cell. -/
theorem eq_of_read_eq (hm : m.wfFrom lo = true) (hn : n.wfFrom lo' = true)
    (h : ∀ a, a < 256 → m.read a = n.read a) : m = n := by
  induction m generalizing lo lo' n with
  | nil =>
    cases n with
    | nil => rfl
    | cons d n => exact absurd rfl (not_wfFrom_above_head hn fun a ha => (h a ha).symm)
  | cons c m ih =>
    obtain ⟨k, v⟩ := c
    cases n with
    | nil => exact absurd rfl (not_wfFrom_above_head hm h)
    | cons d n =>
      obtain ⟨l, w⟩ := d
      obtain rfl : k = l := Nat.le_antisymm (head_le_head hn hm fun a ha => (h a ha).symm) (head_le_head hm hn h)
      obtain ⟨-, hk, -, hm⟩ := wfFrom_cons.mp hm
      obtain ⟨-, -, -, hn⟩ := wfFrom_cons.mp hn
      have hvw : v = w := by simpa only [read_cons_self] using h k hk
      rw [hvw, ih hm hn fun a ha => read_tail_eq hm hn (h a ha)]

end Memory

/-- Settles O8, by induction on the two lists (`Memory.eq_of_read_eq`). -/
theorem canonicalMemoriesAreEqualData : Obligations.CanonicalMemoriesAreEqualData :=
  fun _ _ => Memory.eq_of_read_eq

end Sys2Proof.Machine
end

section
/-! Proofs of the memory family (20_memory.md): the one cell that a push writes, who writes memory (R32), and a pushed
byte that is fetched (R40). -/

namespace Sys2Proof.Machine

variable {opc : OpcodeMap} {s t : State} {i : Instr}

/-! ### What a push writes -/

/-- A push stores in the cell below the stack pointer, and every other cell reads as before (R115, R125). -/
theorem State.pushed_readByte (hs : s.sp ≠ 0) (v : Byte) (b : Nat) :
    ((s.setSp (s.sp - 1)).storeTop v).readByte b = if b + 1 = s.sp.toNat then v else s.readByte b := by
  have hpos : s.sp.toNat ≠ 0 := fun h0 => hs (BitVec.eq_of_toNat_eq h0)
  have hsub : (s.sp - 1).toNat = s.sp.toNat - 1 := toNat_sub_one hs
  rw [State.storeTop_readByte, State.setSp_sp, State.setSp_readByte, hsub]
  exact if_congr (by omega) rfl rfl

theorem State.eq_of_pushed_readByte_ne (hs : s.sp ≠ 0) {v : Byte} {a : Nat}
    (h : ((s.setSp (s.sp - 1)).storeTop v).readByte a ≠ s.readByte a) : a + 1 = s.sp.toNat :=
  by_contra fun hne => h (by rw [State.pushed_readByte hs, if_neg hne])

/-- An effect that changes what a cell reads as is PUSH's or CALL's, and the cell is the one below the stack pointer. -/
theorem Effect.writer_of_readByte_ne (he : Effect s i t) {a : Nat} (h : t.readByte a ≠ s.readByte a) :
    (i.mnemonic = .push ∨ i.mnemonic = .call) ∧ a + 1 = s.sp.toNat := by
  cases he with
  | push r i hr hs => exact ⟨.inl rfl, State.eq_of_pushed_readByte_ne hs h⟩
  | call r i hr hpc hs => exact ⟨.inr rfl, State.eq_of_pushed_readByte_ne hs h⟩
  | jeq | jne => split at h <;> exact absurd rfl h
  | _ => exact absurd rfl h

/-- Settles O45: a step is an effect of the fetched instruction or a fault, and a fault writes no memory. -/
theorem onlyPushAndCallWriteMemory : Obligations.OnlyPushAndCallWriteMemory := by
  intro opc _ s t a h ha
  obtain ⟨-, ⟨i, hi, he | ⟨c, rfl, -⟩⟩ | ⟨c, rfl, -⟩⟩ := stepWith_next h
  · obtain ⟨hm, hsp⟩ := he.writer_of_readByte_ne ha
    have hop := hi.opcodeAtPc
    exact ⟨hm.imp (fun e : i.mnemonic = .push => e ▸ hop) (fun e : i.mnemonic = .call => e ▸ hop), hsp⟩
  · exact absurd rfl ha
  · exact absurd rfl ha

/-! ### An encoding that stands at the pc is fetched -/

theorem bytesAt_nil {a : Nat} : BytesAt s a [] ↔ a ≤ 256 := by
  simp [BytesAt]

theorem bytesAt_cons {a : Nat} {b : Byte} {bs : List Byte} :
    BytesAt s a (b :: bs) ↔ s.readByte a = b ∧ BytesAt s (a + 1) bs := by
  simp only [BytesAt, List.length_cons]
  constructor
  · rintro ⟨hlen, h⟩
    refine ⟨h 0 (Nat.succ_pos _), by omega, fun k hk => ?_⟩
    rw [Nat.add_right_comm]
    exact h (k + 1) (Nat.succ_lt_succ hk)
  · rintro ⟨hb, hlen, h⟩
    refine ⟨by omega, fun k hk => ?_⟩
    cases k with
    | zero => exact hb
    | succ k =>
      rw [← Nat.add_assoc, Nat.add_right_comm]
      exact h k (Nat.lt_of_succ_lt_succ hk)

/-- At most two bytes that stand in memory are the first of the two cells there. -/
theorem BytesAt.eq_take {a : Nat} {bs : List Byte} (h : BytesAt s a bs) (hlen : bs.length ≤ 2) :
    bs = ([s.readByte a, s.readByte (a + 1)] : List Byte).take bs.length := by
  match bs, h, hlen with
  | [], _, _ => rfl
  | [b], h, _ =>
    obtain ⟨hb, -⟩ := bytesAt_cons.mp h
    simp [hb]
  | [b, c], h, _ =>
    obtain ⟨hb, h⟩ := bytesAt_cons.mp h
    obtain ⟨hc, -⟩ := bytesAt_cons.mp h
    simp [hb, hc]

/-- The instruction whose encoding stands at the pc is the one fetched (R73 to R75). -/
theorem Fetched.of_bytesAt (hopc : opc.Legal) (h : BytesAt s s.pc.toNat (encode opc i)) : Fetched opc s i := by
  obtain ⟨hop, hargs⟩ := bytesAt_cons.mp h
  have hn := i.operands_length
  refine ⟨?_, ?_, ?_⟩
  · have := hargs.1
    omega
  · rw [hop]
    exact lookup_opcode hopc.1 i.mnemonic
  · rw [← hn]
    exact hargs.eq_take (hn ▸ i.mnemonic.operandCount_le)

/-- A running machine with an instruction's encoding at the pc runs its handler. -/
theorem stepWith_of_bytesAt (hopc : opc.Legal) (hr : s.run = .running) (h : BytesAt s s.pc.toNat (encode opc i)) :
    stepWith opc s = exec i s :=
  stepWith_of_fetchInstr hr (fetchInstr_of_fetched (.of_bytesAt hopc h))

/-! ### A pushed byte is fetched -/

/-- A running machine with HLT's opcode at the pc halts in place (R90, decision D6). -/
theorem stepWith_hlt (hopc : opc.Legal) (hr : s.run = .running) (h : OpcodeAtPc opc s .hlt) :
    stepWith opc s = .next s.halt := by
  obtain ⟨hpc, hop⟩ := h
  have hb : BytesAt s s.pc.toNat (encode opc .hlt) := bytesAt_cons.mpr ⟨hop, bytesAt_nil.mpr (Nat.succ_le_succ hpc)⟩
  rw [stepWith_of_bytesAt hopc hr hb, exec_hlt]

/-- Settles O53: the cell that the PUSH writes is the one the pc has moved on to. -/
theorem pushedByteIsTheNextOpcode : Obligations.PushedByteIsTheNextOpcode := by
  intro opc hopc s r i hr hb hi hi7 hreg hsp
  have hlt := s.sp.isLt
  have hs : s.sp ≠ 0 := fun h0 => Nat.succ_ne_zero _ (hsp.symm.trans (congrArg BitVec.toNat h0))
  have hpc (v : Byte) : (((s.setSp (s.sp - 1)).storeTop v).advance 2).pc.toNat = s.pc.toNat + 2 :=
    State.advance_pc_toNat (show s.pc.toNat ≤ 258 by omega) (by decide)
  have hcell : ((s.setSp (s.sp - 1)).storeTop ((s.setSp (s.sp - 1)).readReg i)).readByte (s.pc.toNat + 2) = opc .hlt := by
    rw [State.pushed_readByte hs, if_pos hsp.symm, State.setSp_readReg, if_neg hi7, hreg]
  have hpush := (stepWith_of_bytesAt hopc hr hb).trans (exec_of_effect (.push r i hi hs))
  refine ⟨_, _, hpush, stepWith_hlt hopc hr ⟨?_, ?_⟩, rfl, hpc _⟩
  · rw [hpc]
    omega
  · rw [hpc, State.advance_readByte, hcell]

end Sys2Proof.Machine
end

section
/-! Proofs of the encoding family (30_encoding.md): what decoding the bytes after a known opcode answers, what decoding
answers, and that the two invert each other. -/

namespace Sys2Proof

variable {opc : OpcodeMap} {op : Byte} {bytes rest : List Byte} {m : Mnemonic} {i : Instr} {e : DecodeError}

/-! ### The equations of the decoder -/

@[simp] theorem decode_nil : decode opc [] = .error .noOpcode := rfl

/-- A byte that the lookup finds is followed by its operands (R56). -/
theorem decode_cons_of_lookup (h : lookupOpcode opc op = some m) : decode opc (op :: rest) = decodeOperands rest m := by
  simp only [decode, h]

/-- Under an injective assignment a mnemonic's opcode is followed by that mnemonic's operands (R26, R55). -/
theorem decode_opcode_cons (hopc : opc.Legal) : decode opc (opc m :: rest) = decodeOperands rest m :=
  decode_cons_of_lookup (lookup_opcode hopc.1 m)

/-- A byte that is no mnemonic's opcode is refused by name (R57). -/
theorem decode_cons_of_unknown (h : ∀ m, opc m ≠ op) : decode opc (op :: rest) = .error (.unknownOpcode op) := by
  simp only [decode, lookup_eq_none.mpr h]

/-- Everything decoding a byte and what follows it can be: the operands of a mnemonic with that opcode, or the refusal. -/
theorem decode_cons_cases (opc : OpcodeMap) (op : Byte) (rest : List Byte) :
    (∃ m, opc m = op ∧ decode opc (op :: rest) = decodeOperands rest m) ∨
      ((∀ m, opc m ≠ op) ∧ decode opc (op :: rest) = .error (.unknownOpcode op)) := by
  cases h : lookupOpcode opc op with
  | some m => exact .inl ⟨m, opcode_of_lookup h, decode_cons_of_lookup h⟩
  | none =>
    have hop := lookup_eq_none.mp h
    exact .inr ⟨hop, decode_cons_of_unknown hop⟩

/-! ### Decoding and encoding invert each other -/

/-- Settles O1: the lookup finds the mnemonic, and its operands are all there. -/
theorem decodeOfEncodeIsTheInstruction : Obligations.DecodeOfEncodeIsTheInstruction := by
  intro opc hopc i rest
  calc decode opc (encode opc i ++ rest)
    _ = decode opc (opc i.mnemonic :: (i.operands ++ rest)) := rfl
    _ = decodeOperands (i.operands ++ rest) i.mnemonic := decode_opcode_cons hopc
    _ = .ok (i, rest) := decodeOperands_operands i rest

/-- Settles O2: the first byte is the opcode of the mnemonic found, and the bytes after it are the operands read. -/
theorem decodedBytesAreTheEncoding : Obligations.DecodedBytesAreTheEncoding := by
  intro opc bytes rest i h
  cases bytes with
  | nil => cases h
  | cons op bs =>
    obtain ⟨m, rfl, hd⟩ | ⟨-, hd⟩ := decode_cons_cases opc op bs
    · obtain ⟨rfl, rfl⟩ := decodeOperands_ok (hd.symm.trans h)
      rfl
    · cases hd.symm.trans h

/-! ### When the decoder rejects -/

/-- Operands that decode are as many bytes as the format has, so too few bytes are refused, and only those (R75). -/
theorem decodeOperands_eq_error :
    decodeOperands rest m = .error e ↔ rest.length < m.operandCount ∧ e = .missingOperand (rest.length + 1) := by
  refine ⟨decodeOperands_error, fun ⟨hlt, he⟩ => ?_⟩
  cases hd : decodeOperands rest m with
  | error e' => rw [he, (decodeOperands_error hd).2]
  | ok p =>
    obtain ⟨i, rest'⟩ := p
    obtain ⟨rfl, rfl⟩ := decodeOperands_ok hd
    rw [List.length_append, i.operands_length] at hlt
    omega

/-- Only the empty string has no opcode byte (R73). -/
theorem decode_eq_noOpcode : decode opc bytes = .error .noOpcode ↔ bytes = [] := by
  cases bytes with
  | nil => simp
  | cons op rest =>
    obtain ⟨m, -, hd⟩ | ⟨-, hd⟩ := decode_cons_cases opc op rest
    · simp [hd, decodeOperands_eq_error]
    · simp [hd]

/-- An opcode is refused as unknown when it is no mnemonic's, and only then (R57, R74). -/
theorem decode_eq_unknownOpcode :
    decode opc bytes = .error (.unknownOpcode op) ↔ ∃ rest, bytes = op :: rest ∧ ∀ m, opc m ≠ op := by
  constructor
  · intro h
    cases bytes with
    | nil => cases h
    | cons b rest =>
      obtain ⟨m, -, hd⟩ | ⟨hb, hd⟩ := decode_cons_cases opc b rest
      · simp [hd, decodeOperands_eq_error] at h
      · cases hd.symm.trans h
        exact ⟨rest, rfl, hb⟩
  · rintro ⟨rest, rfl, hop⟩
    exact decode_cons_of_unknown hop

/-- An operand is missing when fewer bytes follow the opcode than its format has, and the first one missing is named (R75). -/
theorem decode_eq_missingOperand (hopc : opc.Legal) {k : Nat} :
    decode opc bytes = .error (.missingOperand k) ↔
      ∃ m rest, bytes = opc m :: rest ∧ rest.length < m.operandCount ∧ k = rest.length + 1 := by
  constructor
  · intro h
    cases bytes with
    | nil => cases h
    | cons op rest =>
      obtain ⟨m, rfl, hd⟩ | ⟨-, hd⟩ := decode_cons_cases opc op rest
      · obtain ⟨hlt, he⟩ := decodeOperands_eq_error.mp (hd.symm.trans h)
        cases he
        exact ⟨m, rest, rfl, hlt, rfl⟩
      · cases hd.symm.trans h
  · rintro ⟨m, rest, rfl, hlt, rfl⟩
    rw [decode_opcode_cons hopc]
    exact decodeOperands_eq_error.mpr ⟨hlt, rfl⟩

/-- Settles O3, one lemma per error. -/
theorem decoderRejectsByName : Obligations.DecoderRejectsByName := by
  intro opc hopc bytes e
  cases e with
  | noOpcode => exact decode_eq_noOpcode
  | unknownOpcode op => exact decode_eq_unknownOpcode
  | missingOperand k => exact decode_eq_missingOperand hopc

/-! ### The default assignment -/

/-- The bytes an assignment uses are those it gives to the mnemonics of the table. -/
theorem exists_opcode_eq_iff (opc : OpcodeMap) (b : Byte) : (∃ m, opc m = b) ↔ b ∈ Mnemonic.all.map opc := by
  simp only [List.mem_map, Mnemonic.mem_all, true_and]

/-- The default bytes in the order of R2 are R57's list in another order. -/
theorem opcodeByte_perm : (Mnemonic.all.map opcodeByte).Perm
    [0x01, 0x11, 0x45, 0x46, 0x47, 0x50, 0x54, 0x55, 0x56, 0x82, 0xA0, 0xA2, 0xA7] := by decide

/-- Settles O4. -/
theorem defaultOpcodesAreLegal : Obligations.DefaultOpcodesAreLegal :=
  ⟨opcodeByte_legal, fun b => (exists_opcode_eq_iff opcodeByte b).trans opcodeByte_perm.mem_iff⟩

/-- Byte 0 is no default opcode (R57). -/
theorem opcodeByte_ne_zero (m : Mnemonic) : opcodeByte m ≠ 0 := fun h =>
  absurd ((exists_opcode_eq_iff opcodeByte 0).mp ⟨m, h⟩) (by decide)

/-- Settles O5: each word is the encoding of its instruction, and byte 0 is no opcode. -/
theorem writtenWordsDecode : Obligations.WrittenWordsDecode := by
  have word (i : Instr) : decode opcodeByte (encode opcodeByte i ++ []) = .ok (i, []) :=
    decodeOfEncodeIsTheInstruction opcodeByte opcodeByte_legal i []
  exact ⟨word (.ldi 0 8), word (.prn 0), word .hlt, word (.add 0 1), word (.cmp 2 3), word (.push 1), word (.call 1),
    word .ret, word (.jmp 2), decode_cons_of_unknown opcodeByte_ne_zero⟩

end Sys2Proof
end

section
/-! Proofs of the encoding family (30_encoding.md): fetching and decoding depend on nothing but the pc and the bytes there
(R60). -/

namespace Sys2Proof.Machine

variable {s t : State}

/-- Memories that agree on `n` cells from `a` on give the same bytes there. -/
theorem Memory.readUpTo_congr {m m' : Memory} {a n : Nat} (h : ∀ k, k < n → m.read (a + k) = m'.read (a + k)) :
    m.readUpTo a n = m'.readUpTo a n := by
  induction n generalizing a with
  | zero => rfl
  | succ n ih =>
    have hhead : m.read a = m'.read a := h 0 n.succ_pos
    have htail : m.readUpTo (a + 1) n = m'.readUpTo (a + 1) n := ih fun k hk => by
      rw [Nat.add_right_comm]
      exact h (k + 1) (Nat.succ_lt_succ hk)
    simp only [readUpTo, hhead, htail]

theorem State.fetchBytes_congr (hpc : t.pc = s.pc)
    (h : ∀ k, k < 3 → t.readByte (s.pc.toNat + k) = s.readByte (s.pc.toNat + k)) : t.fetchBytes = s.fetchBytes := by
  rw [State.fetchBytes, hpc]
  exact Memory.readUpTo_congr h

/-- Settles O6: fetching looks at the state through the bytes at the pc and the pc alone. -/
theorem decodingDependsOnMemoryAndPcOnly : Obligations.DecodingDependsOnMemoryAndPcOnly := by
  intro opc s t hpc h
  simp only [fetchInstr, State.fetchBytes_congr hpc h, hpc]

end Sys2Proof.Machine
end

section
/-! Proofs of the engine family (40_engine.md): what a step answers in each case of its start, and the statements that
follow from that. -/

namespace Sys2Proof.Machine

variable {opc : OpcodeMap} {s t : State} {i : Instr} {c : Cause}

/-! ### A fault of the fetch is the step's answer -/

/-- A fault leaves everything but the run state and the record (R178, R179). -/
theorem State.faultTaken_raise (s : State) (c : Cause) : FaultTaken s c (s.raise c) :=
  ⟨rfl, rfl, rfl, rfl, rfl, rfl, rfl⟩

/-- Where the fetch faults, no instruction is fetched. -/
theorem FetchFault.not_fetched (hf : FetchFault opc s c) : ¬ Fetched opc s i := by
  intro hi
  have hpc := hi.pc_le
  cases hf with
  | fetch h => omega
  | unknown _ hu => exact hu _ (opcode_of_lookup hi.lookup)
  | operand m _ hm hn =>
    obtain rfl : i.mnemonic = m := Option.some.inj (hi.lookup.symm.trans hm)
    omega

/-- The conditions of R73, R74 and R75 exclude each other, so a state has one fault of the fetch at most. -/
theorem FetchFault.unique {c' : Cause} (hf : FetchFault opc s c) (hf' : FetchFault opc s c') : c = c' := by
  cases hf with
  | fetch h =>
    cases hf' with
    | fetch => rfl
    | unknown h' => omega
    | operand _ h' => omega
  | unknown h hu =>
    cases hf' with
    | fetch h' => omega
    | unknown => rfl
    | operand m _ hm => exact absurd (opcode_of_lookup hm) (hu m)
  | operand m h hm =>
    cases hf' with
    | fetch h' => omega
    | unknown _ hu => exact absurd (opcode_of_lookup hm) (hu m)
    | operand => rfl

/-- A running machine whose fetch faults takes that fault (R73 to R75, R178). -/
theorem FetchFault.stepWith_eq (hf : FetchFault opc s c) (hr : s.run = .running) : stepWith opc s = fails s c := by
  obtain ⟨i, hi, -⟩ | ⟨c', hf', -, he⟩ := stepWith_cases opc hr
  · exact absurd hi hf.not_fetched
  · rw [he, hf.unique hf']

theorem FetchFault.taken (hf : FetchFault opc s c) (hr : s.run = .running) :
    ∃ t, stepWith opc s = .next t ∧ FaultTaken s c t :=
  ⟨s.raise c, hf.stepWith_eq hr, s.faultTaken_raise c⟩

/-- Settles O14: a pc above 255 is the first of the fetch's faults. -/
theorem fetchAboveMemoryFaults : Obligations.FetchAboveMemoryFaults :=
  fun _ _ hr hpc => (FetchFault.fetch hpc).taken hr

/-- Settles O16: the lookup finds the mnemonic, and its last operand byte is outside memory. -/
theorem operandAboveMemoryFaults : Obligations.OperandAboveMemoryFaults := by
  intro opc hopc s m hr hop hn
  obtain ⟨hpc, hbyte⟩ := hop
  have hm : lookupOpcode opc (s.readByte s.pc.toNat) = some m := by rw [hbyte, lookup_opcode hopc.1]
  exact (FetchFault.operand m hpc hm hn).taken hr

/-! ### The handler -/

/-- Settles O13. -/
theorem encodedInstructionAtPcRuns : Obligations.EncodedInstructionAtPcRuns :=
  fun _ hopc _ _ hr h => stepWith_of_bytesAt hopc hr h

/-- Settles O17. -/
theorem badRegisterOperandFaults : Obligations.BadRegisterOperandFaults :=
  fun _ s _ h => ⟨_, exec_of_firstBadRegister h s, s.faultTaken_raise _⟩

/-! ### When a next state is defined -/

/-- A handler always answers a next state. -/
theorem exists_exec_eq_next (i : Instr) (s : State) : ∃ t, exec i s = .next t := by
  obtain ⟨t, ht, -⟩ | ⟨c, hc, -⟩ := exec_cases i s
  · exact ⟨t, ht⟩
  · exact ⟨s.raise c, hc⟩

/-- A running machine takes a step: a handler's answer, or the fault of the fetch. -/
theorem exists_stepWith_eq_next (opc : OpcodeMap) (hr : s.run = .running) : ∃ t, stepWith opc s = .next t := by
  obtain ⟨i, -, -, he⟩ | ⟨c, -, -, he⟩ := stepWith_cases opc hr
  · rw [he]
    exact exists_exec_eq_next i s
  · exact ⟨s.raise c, he⟩

/-- A step was taken by a running machine (R71). -/
theorem run_of_stepWith_eq_next (h : stepWith opc s = .next t) : s.run = .running := (stepWith_next h).1

/-- Settles O18. -/
theorem stepDefinedExactlyWhileRunning : Obligations.StepDefinedExactlyWhileRunning :=
  fun opc _ => ⟨fun ⟨_, h⟩ => run_of_stepWith_eq_next h, exists_stepWith_eq_next opc⟩

/-! ### Halting -/

/-- A step that halts fetched HLT: every other effect leaves the machine running, and a fault leaves it faulted. -/
theorem opcodeAtPc_hlt_of_halted (h : stepWith opc s = .next t) (ht : t.run = .halted) : OpcodeAtPc opc s .hlt := by
  obtain ⟨hr, ⟨i, hi, he | ⟨c, rfl, -⟩⟩ | ⟨c, rfl, -⟩⟩ := stepWith_next h
  · have hrun := he.run_eq
    split at hrun
    next hlt =>
      subst hlt
      exact hi.opcodeAtPc
    next => simp [ht, hr] at hrun
  · cases ht
  · cases ht

/-- Settles O19: HLT's opcode at the pc halts by `stepWith_hlt`. -/
theorem onlyHltHalts : Obligations.OnlyHltHalts := by
  intro opc hopc s t h
  refine ⟨⟨opcodeAtPc_hlt_of_halted h, fun hop => ?_⟩, fun ht u hu => ?_⟩
  · have hhalt := stepWith_hlt hopc (run_of_stepWith_eq_next h) hop
    cases h.symm.trans hhalt
    rfl
  · cases ht.symm.trans (run_of_stepWith_eq_next hu)

end Sys2Proof.Machine
end

section
/-! Proofs of the engine family (40_engine.md): runs of any length. -/

namespace Sys2Proof.Machine

variable {opc : OpcodeMap} {s t : State} {i : Instr}

/-! ### The output along a run -/

/-- PRN appends to the output, and no other effect touches it (R25). -/
theorem Effect.out_prefix (he : Effect s i t) : s.out <+: t.out := by
  cases he with
  | prn r i h => exact List.prefix_append _ _
  | jeq | jne => split <;> exact List.prefix_rfl
  | _ => exact List.prefix_rfl

/-- A step keeps what has been emitted, a fault too (R153). -/
theorem out_prefix_of_stepWith (h : stepWith opc s = .next t) : s.out <+: t.out := by
  obtain ⟨-, ⟨i, -, he | ⟨c, rfl, -⟩⟩ | ⟨c, rfl, -⟩⟩ := stepWith_next h
  · exact he.out_prefix
  · exact List.prefix_rfl
  · exact List.prefix_rfl

/-- A run of `k + 1` steps is a step and a run of `k` (R72). -/
theorem run_succ_eq_next {k : Nat} : core.run (k + 1) s = .next t ↔ ∃ u, step s = .next u ∧ core.run k u = .next t := by
  have hstep : core.step s = step s := rfl
  simp only [Host.Core.run, hstep]
  cases step s <;> simp

/-- Settles O49, by induction on the number of steps: the first step keeps the invariant and the output, and the run
after it does. -/
theorem runsKeepTheInvariantAndTheOutput : Obligations.RunsKeepTheInvariantAndTheOutput := by
  intro k
  induction k with
  | zero =>
    intro s t hs h
    cases h
    exact ⟨hs, List.prefix_rfl, fun h0 => absurd h0 (Nat.lt_irrefl 0)⟩
  | succ k ih =>
    intro s t hs h
    obtain ⟨u, hu, hrest⟩ := run_succ_eq_next.mp h
    obtain ⟨ht, hout, -⟩ := ih u t (invariantKeptByEveryStep _ _ _ hs hu) hrest
    exact ⟨ht, (out_prefix_of_stepWith hu).trans hout, fun _ => run_of_stepWith_eq_next hu⟩

/-! ### A jump to itself -/

theorem State.jumpTo_self {v : Byte} (h : v.toNat = s.pc.toNat) : s.jumpTo v = s := by
  have hpc : zext9 v = s.pc := BitVec.eq_of_toNat_eq ((zext9_toNat v).trans h)
  rw [State.jumpTo, hpc]

/-- A state that a step leaves as it is stays so along every run. -/
theorem run_of_step_self (h : step s = .next s) (k : Nat) : core.run k s = .next s := by
  induction k with
  | zero => rfl
  | succ k ih => exact run_succ_eq_next.mpr ⟨s, h, ih⟩

/-- Settles O54: the JMP's target is the pc. -/
theorem jumpToItselfNeverEnds : Obligations.JumpToItselfNeverEnds := by
  intro s r i hr hb hi hpc
  refine run_of_step_self ?_
  calc step s
    _ = exec (.jmp r) s := stepWith_of_bytesAt opcodeByte_legal hr hb
    _ = .next (s.jumpTo (s.readReg i)) := exec_of_effect (.jmp r i hi)
    _ = .next s := by rw [State.jumpTo_self hpc]

end Sys2Proof.Machine
end

section
/-! Proofs of the engine family (40_engine.md): what each operation on the state is on its view as plain numbers. -/

namespace Sys2Proof.Machine

variable {s : State}

/-! ### The operations, seen as numbers -/

theorem State.view_x (s : State) (i : RegIdx) : s.view.x i = (s.readReg i).toNat := dif_pos i.isLt

theorem State.view_x_seven (s : State) : s.view.x 7 = s.sp.toNat := s.view_x 7

theorem State.view_raise (s : State) (c : Cause) : (s.raise c).view = s.view.raise c := rfl

theorem State.view_halt (s : State) : s.halt.view = { s.view with run := .halted } := rfl

theorem State.view_setFlags (s : State) (f : FlagState) : (s.setFlags f).view = { s.view with fl := f } := rfl

theorem State.view_emit (s : State) (v : Byte) : (s.emit v).view = { s.view with out := s.view.out ++ [v.toNat] } := by
  simp only [view, emit, List.map_append, List.map_cons, List.map_nil]
  rfl

theorem State.view_jumpTo (s : State) (v : Byte) : (s.jumpTo v).view = { s.view with pc := v.toNat } := by
  rw [← zext9_toNat]
  rfl

theorem State.view_advance (hpc : s.pc.toNat ≤ 255) {n : Nat} (hn : n ≤ 3) :
    (s.advance n).view = { s.view with pc := s.view.pc + n } := by
  have h : s.view.pc + n = (s.advance n).pc.toNat := (State.advance_pc_toNat (by omega) hn).symm
  rw [h]
  rfl

theorem State.view_advance_two (hpc : s.pc.toNat ≤ 255) : (s.advance 2).view = { s.view with pc := s.view.pc + 2 } :=
  State.view_advance hpc (by decide)

theorem State.view_advance_three (hpc : s.pc.toNat ≤ 255) : (s.advance 3).view = { s.view with pc := s.view.pc + 3 } :=
  State.view_advance hpc (by decide)

theorem State.view_writeReg (s : State) (i : RegIdx) (v : Byte) :
    (s.writeReg i v).view = { s.view with x := setAt s.view.x i v.toNat } := by
  have hx : (s.writeReg i v).view.x = setAt s.view.x i v.toNat := by
    funext k
    by_cases hk : k < 8
    · have hki : (⟨k, hk⟩ : RegIdx) = i ↔ k = i := Fin.ext_iff
      simp only [view, setAt, dif_pos hk, writeReg_readReg, hki]
      split <;> rfl
    · have hki : k ≠ i := by omega
      simp only [view, setAt, dif_neg hk, if_neg hki]
  rw [← hx]
  rfl

theorem State.view_setSp (s : State) (v : Byte) :
    (s.setSp v).view = { s.view with x := setAt s.view.x 7 v.toNat } := s.view_writeReg 7 v

theorem State.view_storeTop (s : State) (v : Byte) :
    (s.storeTop v).view = { s.view with mem := setAt s.view.mem s.sp.toNat v.toNat } := by
  have hmem : (s.storeTop v).view.mem = setAt s.view.mem s.sp.toNat v.toNat := by
    funext a
    simp only [view, setAt, storeTop_readByte]
    split <;> rfl
  rw [← hmem]
  rfl

/-- Lowering the stack pointer does not wrap: 0 was refused (decision D10). -/
theorem State.view_setSp_lowered (hs : s.sp ≠ 0) :
    (s.setSp (s.sp - 1)).view = { s.view with x := setAt s.view.x 7 (s.view.x 7 - 1) } := by
  have hsp : (s.sp - 1).toNat = s.view.x 7 - 1 := by rw [State.view_x_seven]; exact toNat_sub_one hs
  rw [State.view_setSp, hsp]

/-- A push, as numbers: the stack pointer is lowered, and the cell it then names is written (R115, R125). -/
theorem State.view_pushed (hs : s.sp ≠ 0) (v : Byte) :
    ((s.setSp (s.sp - 1)).storeTop v).view =
      { s.view with
        x := setAt s.view.x 7 (s.view.x 7 - 1), mem := setAt s.view.mem (s.view.x 7 - 1) v.toNat } := by
  have hsp : (s.setSp (s.sp - 1)).sp.toNat = s.view.x 7 - 1 := by
    rw [← State.view_x_seven, State.view_setSp_lowered hs]
    rfl
  rw [State.view_storeTop, State.view_setSp_lowered hs, hsp]

/-- A register that is read after the stack pointer is lowered (decision D9). -/
theorem State.view_lowered_readReg (hs : s.sp ≠ 0) (k : RegIdx) :
    ((s.setSp (s.sp - 1)).readReg k).toNat = setAt s.view.x 7 (s.view.x 7 - 1) k := by
  rw [← State.view_x, State.view_setSp_lowered hs]

/-- Raising the stack pointer does not wrap: 255 was refused (decision D11). -/
theorem State.view_raiseSp (hs : s.sp ≠ 255) :
    s.raiseSp.view = { s.view with x := setAt s.view.x 7 (s.view.x 7 + 1) } := by
  have hsp : (s.sp + 1).toNat = s.view.x 7 + 1 := by rw [State.view_x_seven]; exact toNat_add_one hs
  rw [State.raiseSp, State.view_setSp, hsp]

/-- The byte on top of the stack. -/
theorem State.view_top (s : State) : s.top.toNat = s.view.mem (s.view.x 7) := by
  rw [State.view_x_seven]
  rfl

/-- The stack pointer that POP checks: the popped byte when POP's register is the stack pointer (R116, decision D9). -/
theorem State.view_popped_sp (s : State) (k : RegIdx) :
    (s.writeReg k s.top).sp.toNat = if k.val = 7 then s.view.mem (s.view.x 7) else s.view.x 7 := by
  rw [State.writeReg_sp, apply_ite BitVec.toNat, State.view_top, State.view_x_seven]
  exact if_congr Fin.ext_iff rfl rfl

/-- R83 compares in another order of its tests (R107, decision D5). -/
theorem compareBytes_eq_compareNat (a b : Byte) : compareBytes a b = compareNat a.toNat b.toNat := by
  unfold compareBytes compareNat
  obtain h | h | h := Nat.lt_trichotomy a.toNat b.toNat
  · rw [if_neg (Nat.ne_of_lt h), if_pos h, if_pos h]
  · rw [if_pos h, if_neg (Nat.not_lt.mpr h.ge), if_neg (Nat.not_lt.mpr h.le)]
  · rw [if_neg (Nat.ne_of_gt h), if_neg (Nat.lt_asymm h), if_neg (Nat.lt_asymm h), if_pos h]

end Sys2Proof.Machine
end

section
/-! Proofs of the engine family (40_engine.md): the step is rule R83 over plain numbers. An effect and a handler's own
fault are what R83's handler does, the register check is R83's before the handler, and so are the faults of the fetch. -/

namespace Sys2Proof.Machine

variable {opc : OpcodeMap} {s t : State} {i : Instr} {c : Cause} {o1 o2 : Byte} {m : Mnemonic}

/-! ### The branches of R83's handlers that can fault -/

section
variable {v : View} (n1 n2 : Nat)

theorem View.handle_push_room (h : v.x 7 ≠ 0) :
    v.handle .push n1 n2 =
      { v with
        x := setAt v.x 7 (v.x 7 - 1), mem := setAt v.mem (v.x 7 - 1) (setAt v.x 7 (v.x 7 - 1) n1), pc := v.pc + 2 } :=
  if_neg h

theorem View.handle_push_full (h : v.x 7 = 0) :
    v.handle .push n1 n2 = v.raise (.outOfBoundsAccess .stackWrite (-1)) := if_pos h

theorem View.handle_pop_room (h : (if n1 = 7 then v.mem (v.x 7) else v.x 7) ≠ 255) :
    v.handle .pop n1 n2 =
      { v with
        x := setAt (setAt v.x n1 (v.mem (v.x 7))) 7 (setAt v.x n1 (v.mem (v.x 7)) 7 + 1), pc := v.pc + 2 } := if_neg h

theorem View.handle_pop_full (h : (if n1 = 7 then v.mem (v.x 7) else v.x 7) = 255) :
    v.handle .pop n1 n2 = v.raise (.outOfBoundsAccess .stackPointer 256) := if_pos h

theorem View.handle_call_over (h : 255 < v.pc + 2) :
    v.handle .call n1 n2 = v.raise (.outOfBoundsAccess .returnAddress (v.pc + 2 : Nat)) := if_pos h

theorem View.handle_call_full (hpc : v.pc + 2 ≤ 255) (h : v.x 7 = 0) :
    v.handle .call n1 n2 = v.raise (.outOfBoundsAccess .stackWrite (-1)) :=
  (if_neg (Nat.not_lt.mpr hpc)).trans (if_pos h)

theorem View.handle_call_room (hpc : v.pc + 2 ≤ 255) (h : v.x 7 ≠ 0) :
    v.handle .call n1 n2 =
      { v with
        x := setAt v.x 7 (v.x 7 - 1), mem := setAt v.mem (v.x 7 - 1) (v.pc + 2), pc := setAt v.x 7 (v.x 7 - 1) n1 } :=
  (if_neg (Nat.not_lt.mpr hpc)).trans (if_neg h)

theorem View.handle_ret_room (h : v.x 7 ≠ 255) :
    v.handle .ret n1 n2 = { v with x := setAt v.x 7 (v.x 7 + 1), pc := v.mem (v.x 7) } := if_neg h

theorem View.handle_ret_full (h : v.x 7 = 255) :
    v.handle .ret n1 n2 = v.raise (.outOfBoundsAccess .stackPointer 256) := if_pos h

end

theorem State.view_x_seven_eq_zero : s.view.x 7 = 0 ↔ s.sp = 0 := by
  rw [State.view_x_seven, ← BitVec.toNat_inj]
  rfl

theorem State.view_x_seven_eq_255 : s.view.x 7 = 255 ↔ s.sp = 255 := by
  rw [State.view_x_seven, ← BitVec.toNat_inj]
  rfl

theorem State.view_popped_sp_eq_255 (k : RegIdx) :
    (if k.val = 7 then s.view.mem (s.view.x 7) else s.view.x 7) = 255 ↔ (s.writeReg k s.top).sp = 255 := by
  rw [← State.view_popped_sp, ← BitVec.toNat_inj]
  rfl

/-! ### An effect is what R83's handler does -/

/-- R83's handler on the view of a state does the instruction's effect, the operand bytes being the instruction's. -/
theorem Effect.view_eq (he : Effect s i t) (hpc : s.pc.toNat ≤ 255)
    (ho : i.operands = ([o1, o2] : List Byte).take i.mnemonic.operandCount) :
    t.view = s.view.handle i.mnemonic o1.toNat o2.toNat := by
  cases he with
  | hlt => exact s.view_halt
  | ldi r imm k h =>
    cases ho
    rw [State.view_advance_three, State.view_writeReg, ← h]
    · rfl
    · exact hpc
  | prn r k h =>
    cases ho
    rw [State.view_advance_two, State.view_emit, ← State.view_x, ← h]
    · rfl
    · exact hpc
  | add a b k l hk hl =>
    cases ho
    rw [State.view_advance_three, State.view_writeReg, BitVec.toNat_add, ← State.view_x, ← State.view_x, ← hk, ← hl]
    · rfl
    · exact hpc
  | mul a b k l hk hl =>
    cases ho
    rw [State.view_advance_three, State.view_writeReg, BitVec.toNat_mul, ← State.view_x, ← State.view_x, ← hk, ← hl]
    · rfl
    · exact hpc
  | cmp a b k l hk hl =>
    cases ho
    rw [State.view_advance_three, State.view_setFlags, compareBytes_eq_compareNat, ← State.view_x, ← State.view_x, ← hk,
      ← hl]
    · rfl
    · exact hpc
  | push r k h hs =>
    cases ho
    rw [State.view_advance_two, State.view_pushed hs, State.view_lowered_readReg hs, ← h]
    · exact (View.handle_push_room _ _ (mt State.view_x_seven_eq_zero.mp hs)).symm
    · exact hpc
  | pop r k h hs =>
    cases ho
    have hroom := mt (State.view_popped_sp_eq_255 k).mp hs
    rw [← h] at hroom
    rw [State.view_advance_two, State.view_raiseSp hs, State.view_writeReg, State.view_top, ← h]
    · exact (View.handle_pop_room _ _ hroom).symm
    · exact hpc
  | call r k h hret hs =>
    cases ho
    have hra : (BitVec.ofNat 8 (s.pc.toNat + 2)).toNat = s.view.pc + 2 := Nat.mod_eq_of_lt (Nat.lt_succ_of_le hret)
    rw [State.view_jumpTo, State.view_pushed hs, State.view_lowered_readReg hs, hra, ← h]
    exact (View.handle_call_room _ _ hret (mt State.view_x_seven_eq_zero.mp hs)).symm
  | ret hs =>
    rw [State.view_jumpTo, State.view_raiseSp hs, State.view_top]
    exact (View.handle_ret_room _ _ (mt State.view_x_seven_eq_255.mp hs)).symm
  | jmp r k h =>
    cases ho
    rw [State.view_jumpTo, ← State.view_x, ← h]
    rfl
  | jeq r k h =>
    cases ho
    rw [apply_ite State.view, State.view_jumpTo, State.view_advance_two hpc, ← State.view_x, ← h]
    rfl
  | jne r k h =>
    cases ho
    rw [apply_ite State.view, State.view_jumpTo, State.view_advance_two hpc, ← State.view_x, ← h, ← ite_not]
    rfl

/-- Where a handler's own check fails, R83's handler raises the same fault. -/
theorem HandlerFault.view_eq (hf : HandlerFault s i c) (hb : i.firstBadRegister = none)
    (ho : i.operands = ([o1, o2] : List Byte).take i.mnemonic.operandCount) :
    s.view.handle i.mnemonic o1.toNat o2.toNat = s.view.raise c := by
  cases hf with
  | register i r h => cases hb.symm.trans h
  | returnAddress r hr h => exact View.handle_call_over _ _ h
  | pushFull r hr h => exact View.handle_push_full _ _ (State.view_x_seven_eq_zero.mpr h)
  | callFull r hr hpc h => exact View.handle_call_full _ _ hpc (State.view_x_seven_eq_zero.mpr h)
  | popFull r k hr h =>
    cases ho
    refine View.handle_pop_full _ _ ?_
    rw [hr]
    exact (State.view_popped_sp_eq_255 k).mpr h
  | retFull h => exact View.handle_ret_full _ _ (State.view_x_seven_eq_255.mpr h)

/-! ### The checks before the handler -/

/-- An instruction with one register operand has a bad one when that byte is above 7. -/
theorem firstBadRegister_one (hi : i.registerOperands = [o1]) :
    i.firstBadRegister = if o1.toNat > 7 then some o1 else none := by
  by_cases h1 : o1.toNat > 7
  · rw [if_pos h1, firstBad_one hi h1]
  · rw [if_neg h1]
    simpa [Instr.firstBadRegister, hi, validRegister] using Nat.lt_of_not_le h1

theorem firstBadRegister_two (hi : i.registerOperands = [o1, o2]) :
    i.firstBadRegister = if o1.toNat > 7 then some o1 else if o2.toNat > 7 then some o2 else none := by
  by_cases h1 : o1.toNat > 7
  · rw [if_pos h1, firstBad_fst hi h1]
  · rw [if_neg h1]
    by_cases h2 : o2.toNat > 7
    · rw [if_pos h2, firstBad_snd hi (Nat.lt_of_not_le h1) h2]
    · rw [if_neg h2]
      simpa [Instr.firstBadRegister, hi, validRegister] using ⟨Nat.lt_of_not_le h1, Nat.lt_of_not_le h2⟩

/-- R76's first bad register, by the format of the instruction, as R83 checks it. -/
theorem firstBadRegister_eq (ho : i.operands = ([o1, o2] : List Byte).take i.mnemonic.operandCount) :
    i.firstBadRegister =
      if i.mnemonic.format ≠ .n ∧ o1.toNat > 7 then some o1
      else if i.mnemonic.format = .rr ∧ o2.toNat > 7 then some o2
      else none := by
  cases i with
  | hlt | ret => rfl
  | add | mul | cmp =>
    cases ho
    rw [firstBadRegister_two rfl]
    simp [Instr.mnemonic, Mnemonic.format]
  | _ =>
    cases ho
    rw [firstBadRegister_one rfl]
    simp [Instr.mnemonic, Mnemonic.format]

theorem Fetched.pc_le_255 (hf : Fetched opc s i) : s.pc.toNat ≤ 255 := Nat.le_trans (Nat.le_add_right _ _) hf.pc_le

/-- R83's checks on a fetched instruction: its operands are in memory, so what is left is the register check. -/
theorem Fetched.view_operands (hf : Fetched opc s i) :
    s.view.operands i.mnemonic = i.firstBadRegister.elim
      (s.view.handle i.mnemonic (s.readByte (s.pc.toNat + 1)).toNat (s.readByte (s.pc.toNat + 2)).toNat)
      fun r => s.view.raise (.outOfBoundsAccess .registerIndex r.toNat) := by
  have hpc : s.view.pc + i.mnemonic.operandCount ≤ 255 := hf.pc_le
  rw [firstBadRegister_eq hf.operands, View.operands, if_neg (by omega), if_neg (by omega),
    apply_ite (Option.elim · _ _), apply_ite (Option.elim · _ _)]
  rfl

/-- A fetched instruction's handler answers what R83's checks and handler answer. -/
theorem Fetched.exec_view (hf : Fetched opc s i) : ∃ t, exec i s = .next t ∧ t.view = s.view.operands i.mnemonic := by
  rw [hf.view_operands]
  cases hb : i.firstBadRegister with
  | some r => exact ⟨_, exec_of_firstBadRegister hb s, s.view_raise _⟩
  | none =>
    obtain ⟨t, ht, he⟩ | ⟨c, hc, hh⟩ := exec_cases i s
    · exact ⟨t, ht, he.view_eq hf.pc_le_255 hf.operands⟩
    · exact ⟨s.raise c, hc, (hh.view_eq hb hf.operands).symm⟩

/-! ### The fetch -/

/-- R83's dispatch on numbers is the lookup of the opcode byte. -/
theorem find_opcode_toNat (opc : OpcodeMap) (op : Byte) :
    Mnemonic.all.find? (fun m => (opc m).toNat == op.toNat) = lookupOpcode opc op := by
  have hbeq (m : Mnemonic) : ((opc m).toNat == op.toNat) = (opc m == op) :=
    beq_eq_beq.mpr BitVec.toNat_inj
  simp only [hbeq, lookupOpcode]

theorem View.step_above (h : 255 < s.pc.toNat) :
    View.step opc s.view = s.view.raise (.outOfBoundsAccess .fetch s.pc.toNat) := if_pos h

theorem View.step_of_lookup (h : s.pc.toNat ≤ 255) (hm : lookupOpcode opc (s.readByte s.pc.toNat) = some m) :
    View.step opc s.view = s.view.operands m := by
  have hfind : Mnemonic.all.find? (fun m => (opc m).toNat == s.view.mem s.view.pc) = some m :=
    (find_opcode_toNat opc _).trans hm
  have hpc : ¬ s.view.pc > 255 := Nat.not_lt.mpr h
  rw [View.step, if_neg hpc]
  simp only [hfind]

theorem View.step_of_unknown (h : s.pc.toNat ≤ 255) (hm : lookupOpcode opc (s.readByte s.pc.toNat) = none) :
    View.step opc s.view = s.view.raise (.unknownOpcode (s.readByte s.pc.toNat)) := by
  have hfind : Mnemonic.all.find? (fun m => (opc m).toNat == s.view.mem s.view.pc) = none :=
    (find_opcode_toNat opc _).trans hm
  have hop : BitVec.ofNat 8 (s.view.mem s.view.pc) = s.readByte s.pc.toNat := BitVec.ofNat_toNat _ _
  have hpc : ¬ s.view.pc > 255 := Nat.not_lt.mpr h
  rw [View.step, if_neg hpc]
  simp only [hfind, hop]

/-- R83 raises an operand byte's fault at the first operand address above 255, which is 256 (R75). -/
theorem State.view_operands_missing (hpc : s.pc.toNat ≤ 255) (hn : 255 < s.pc.toNat + m.operandCount) :
    s.view.operands m = s.view.raise (.outOfBoundsAccess .operandFetch 256) := by
  have hle := m.operandCount_le
  have hvpc : s.view.pc = s.pc.toNat := rfl
  by_cases h255 : s.pc.toNat = 255
  · rw [View.operands, if_pos (by omega), hvpc, h255]
    rfl
  · have h254 : s.pc.toNat = 254 := by omega
    rw [View.operands, if_neg (by omega), if_pos (by omega), hvpc, h254]
    rfl

/-- Where the fetch faults, R83's step raises the same fault. -/
theorem FetchFault.view_step (hf : FetchFault opc s c) : View.step opc s.view = s.view.raise c := by
  cases hf with
  | fetch h => exact View.step_above h
  | unknown h hu => exact View.step_of_unknown h (lookup_eq_none.mpr hu)
  | operand m h hm hn => rw [View.step_of_lookup h hm, State.view_operands_missing h hn]

/-- Settles O23: the fetch by `FetchFault.view_step`, the instruction fetched by `Fetched.exec_view`. -/
theorem stepIsRuleR83 : Obligations.StepIsRuleR83 := by
  intro opc s hr
  obtain ⟨i, hi, -, he⟩ | ⟨c, hf, -, he⟩ := stepWith_cases opc hr
  · obtain ⟨t, ht, hview⟩ := hi.exec_view
    refine ⟨t, he.trans ht, ?_⟩
    rw [hview, View.step_of_lookup hi.pc_le_255 hi.lookup]
  · exact ⟨s.raise c, he, hf.view_step.symm⟩

end Sys2Proof.Machine
end

section
/-! Proofs of the system and output family (41_system_io.md): HLT, PRN, and PRN from the bytes in memory. -/

namespace Sys2Proof.Machine

variable {opc : OpcodeMap} {s t : State} {i : Instr}

/-- Settles O24: the next state is `s.halt`. -/
theorem hltHaltsInPlace : Obligations.HltHaltsInPlace :=
  fun s => ⟨s.halt, exec_hlt s, s.halt_run, s.halt_pc, s.halt_fl, s.halt_fault, s.halt_out, s.halt_readReg,
    s.halt_readByte⟩

/-- Settles O25: the next state is PRN's `Effect`, whose pc does not wrap. -/
theorem prnEmitsTheRegister : Obligations.PrnEmitsTheRegister := by
  intro s r i hi hpc
  have hadvance : ((s.emit (s.readReg i)).advance 2).pc.toNat = s.pc.toNat + 2 :=
    State.advance_pc_toNat (s := s.emit _) hpc (by decide)
  exact ⟨_, exec_of_effect (.prn r i hi), rfl, hadvance, rfl, ⟨rfl, rfl⟩, fun _ => rfl, fun _ => rfl⟩

/-- A result has one next state: what holds of some next state holds of the one answered. -/
theorem of_exists_eq_next {res : Result} {P : State → Prop} (h : res = .next t) (hP : ∃ u, res = .next u ∧ P u) :
    P t := by
  obtain ⟨u, hu, hPu⟩ := hP
  cases h.symm.trans hu
  exact hPu

/-- A running machine with `i`'s opcode at the pc, and the operand bytes behind it, runs `i`'s handler (R73 to R77). -/
theorem stepWith_of_opcodeAtPc (hopc : opc.Legal) (hr : s.run = .running) (hop : OpcodeAtPc opc s i.mnemonic)
    (hpc : s.pc.toNat + i.mnemonic.operandCount ≤ 255)
    (hargs : i.operands =
      ([s.readByte (s.pc.toNat + 1), s.readByte (s.pc.toNat + 2)] : List Byte).take i.mnemonic.operandCount) :
    stepWith opc s = exec i s := by
  obtain ⟨-, hbyte⟩ := hop
  have hlookup : lookupOpcode opc (s.readByte s.pc.toNat) = some i.mnemonic := by rw [hbyte, lookup_opcode hopc.1]
  exact stepWith_of_fetchInstr hr (fetchInstr_of_fetched ⟨hpc, hlookup, hargs⟩)

/-- A byte more in the output is a line more on the sink (R152). -/
theorem State.sinkLines_of_out_append {v : Byte} (h : t.out = s.out ++ [v]) :
    t.sinkLines = s.sinkLines ++ [toString v.toNat] := by
  simp only [sinkLines, h, List.map_append, List.map_cons, List.map_nil]

/-- Settles O41: at 255 the operand is missing (`operandAboveMemoryFaults`); below, the step is the handler's, with a bad
register (`badRegisterOperandFaults`) or a good one (`prnEmitsTheRegister`). -/
theorem prnRuleFromBytes : Obligations.PrnRuleFromBytes := by
  refine ⟨fetchAboveMemoryFaults opcodeByte, fun s hr hpc hbyte => ?_⟩
  have hop : OpcodeAtPc opcodeByte s .prn := ⟨hpc, hbyte⟩
  have hexec (h : s.pc.toNat ≤ 254) : stepWith opcodeByte s = exec (.prn (s.readByte (s.pc.toNat + 1))) s :=
    stepWith_of_opcodeAtPc opcodeByte_legal hr hop (Nat.succ_le_succ h) rfl
  obtain ⟨t, ht⟩ := exists_stepWith_eq_next opcodeByte hr
  refine ⟨t, ht, fun h255 => ?_, fun h254 hbad => ?_, fun h254 i hi => ?_⟩
  · have hmissing : 255 < s.pc.toNat + Mnemonic.prn.operandCount := h255 ▸ Nat.lt_succ_self 255
    exact of_exists_eq_next ht (operandAboveMemoryFaults opcodeByte opcodeByte_legal s .prn hr hop hmissing)
  · rw [hexec h254] at ht
    exact of_exists_eq_next ht (badRegisterOperandFaults _ s _ (firstBad_one rfl hbad))
  · rw [hexec h254] at ht
    obtain ⟨hout, hframe⟩ := of_exists_eq_next ht (prnEmitsTheRegister s _ i hi (by omega))
    exact ⟨hout, State.sinkLines_of_out_append hout, hframe⟩

end Sys2Proof.Machine
end

section
/-! Proofs of the load immediate family (42_load_immediate.md): LDI, LDI from the bytes in memory, and LDI followed by
PRN. -/

namespace Sys2Proof.Machine

variable {s t : State}

/-- Settles O26: the next state is LDI's `Effect`, whose pc does not wrap. -/
theorem ldiLoadsTheImmediate : Obligations.LdiLoadsTheImmediate := by
  intro s r imm i hi hpc
  have hload : (s.writeReg i imm).readReg i = imm := by rw [State.writeReg_readReg, if_pos rfl]
  have hadvance : ((s.writeReg i imm).advance 3).pc.toNat = s.pc.toNat + 3 :=
    State.advance_pc_toNat (s := s.writeReg i imm) hpc (by decide)
  exact ⟨_, exec_of_effect (.ldi r imm i hi), hload, s.sameRegsBut_writeReg i imm, hadvance, rfl, rfl, ⟨rfl, rfl⟩,
    fun _ => rfl⟩

/-! ### Two encodings that stand in memory one behind the other -/

/-- Bytes that stand in memory are a first part there and the rest behind it. -/
theorem BytesAt.of_append {a : Nat} {bs cs : List Byte} (h : BytesAt s a (bs ++ cs)) :
    BytesAt s a bs ∧ BytesAt s (a + bs.length) cs := by
  induction bs generalizing a with
  | nil => exact ⟨bytesAt_nil.mpr (Nat.le_of_add_right_le h.1), h⟩
  | cons b bs ih =>
    obtain ⟨hb, h⟩ := bytesAt_cons.mp h
    obtain ⟨hbs, hcs⟩ := ih h
    refine ⟨bytesAt_cons.mpr ⟨hb, hbs⟩, ?_⟩
    rwa [List.length_cons, ← Nat.add_assoc, Nat.add_right_comm]

theorem BytesAt.of_sameMemory {a : Nat} {bs : List Byte} (h : BytesAt s a bs) (hm : SameMemory s t) : BytesAt t a bs :=
  h.imp_right fun hbs k hk => (hm (a + k)).trans (hbs k hk)

/-- The property R100 quotes: LDI loads the value, and leaves the PRN behind it in memory to put it out. -/
theorem step_ldi_prn {r v : Byte} {i : RegIdx} (hr : s.run = .running) (hi : Names r i)
    (hb : BytesAt s s.pc.toNat (encode opcodeByte (.ldi r v) ++ encode opcodeByte (.prn r))) :
    ∃ t u, step s = .next t ∧ step t = .next u ∧ u.out = s.out ++ [v] := by
  obtain ⟨hldi, hprn⟩ := hb.of_append
  have hpc : s.pc.toNat + 3 ≤ 256 := hldi.1
  obtain ⟨t, ht, hreg, -, htpc, -, hout, ⟨hrun, -⟩, hmem⟩ := ldiLoadsTheImmediate s r v i hi (by omega)
  have hprn' : BytesAt t t.pc.toNat (encode opcodeByte (.prn r)) := htpc ▸ hprn.of_sameMemory hmem
  obtain ⟨u, hu, huout, -⟩ := prnEmitsTheRegister t r i hi (by omega)
  refine ⟨t, u, (stepWith_of_bytesAt opcodeByte_legal hr hldi).trans ht,
    (stepWith_of_bytesAt opcodeByte_legal (hrun.trans hr) hprn').trans hu, ?_⟩
  rw [huout, hout, hreg]

/-! ### LDI from the bytes in memory -/

/-- Settles O42: at 254 and 255 an operand is missing (`operandAboveMemoryFaults`); below, the step is the handler's, with
a bad register (`badRegisterOperandFaults`) or a good one (`ldiLoadsTheImmediate`); PRN behind it is `step_ldi_prn`. -/
theorem ldiRuleFromBytes : Obligations.LdiRuleFromBytes := by
  refine ⟨fetchAboveMemoryFaults opcodeByte, fun s hr hpc hbyte => ?_, fun s r v i hr hi hb => step_ldi_prn hr hi hb⟩
  have hop : OpcodeAtPc opcodeByte s .ldi := ⟨hpc, hbyte⟩
  have hexec (h : s.pc.toNat ≤ 253) : stepWith opcodeByte s =
      exec (.ldi (s.readByte (s.pc.toNat + 1)) (s.readByte (s.pc.toNat + 2))) s :=
    stepWith_of_opcodeAtPc opcodeByte_legal hr hop (Nat.add_le_add_right h 2) rfl
  obtain ⟨t, ht⟩ := exists_stepWith_eq_next opcodeByte hr
  refine ⟨t, ht, fun h254 => ?_, fun h253 hbad => ?_, fun h253 i hi => ?_⟩
  · have hmissing : 255 < s.pc.toNat + Mnemonic.ldi.operandCount := Nat.add_le_add_right h254 2
    exact of_exists_eq_next ht (operandAboveMemoryFaults opcodeByte opcodeByte_legal s .ldi hr hop hmissing)
  · rw [hexec h253] at ht
    exact of_exists_eq_next ht (badRegisterOperandFaults _ s _ (firstBad_one rfl hbad))
  · rw [hexec h253] at ht
    exact of_exists_eq_next ht (ldiLoadsTheImmediate s _ _ i hi (by omega))

end Sys2Proof.Machine
end

section
/-! Proofs of the arithmetic family (43_alu.md): what ADD and MUL share, and the three outcomes of CMP's comparison. -/

namespace Sys2Proof.Machine

variable {s : State} {a b : Byte} {i j : RegIdx}

/-! ### ADD and MUL -/

theorem aluByte_toNat (op : AluOp) (v w : Byte) : (aluByte op v w).toNat = aluExact op v.toNat w.toNat % 256 :=
  BitVec.toNat_ofNat _ 8

/-- R108 for either operation, with the frame of R105 and R106; the same register twice is no special case, since both
are read before the write. -/
theorem aluRegs_modulo256 (op : AluOp) (hi : Names a i) (hj : Names b j) (hpc : s.pc.toNat ≤ 258) :
    ∃ t, aluRegs op a b s = .next t ∧
      (t.readReg i).toNat = aluExact op (s.readReg i).toNat (s.readReg j).toNat % 256 ∧
      SameRegsBut [i] s t ∧ t.pc.toNat = s.pc.toNat + 3 ∧ t.fl = s.fl ∧ t.out = s.out ∧ SameControl s t ∧
      SameMemory s t := by
  have hwritten (v : Byte) : (s.writeReg i v).readReg i = v := by rw [State.writeReg_readReg, if_pos rfl]
  have hadvance (v : Byte) : ((s.writeReg i v).advance 3).pc.toNat = s.pc.toNat + 3 :=
    State.advance_pc_toNat (s := s.writeReg i v) hpc (by decide)
  exact ⟨_, withRegs_names hi hj s _, (congrArg BitVec.toNat (hwritten _)).trans (aluByte_toNat op _ _),
    s.sameRegsBut_writeReg i _, hadvance _, rfl, rfl, ⟨rfl, rfl⟩, fun _ => rfl⟩

/-- Settles O27: ADD is `aluRegs` with the exact sum. -/
theorem addIsModulo256 : Obligations.AddIsModulo256 :=
  fun _ _ _ _ _ hi hj hpc => aluRegs_modulo256 .add hi hj hpc

/-- Settles O28: MUL is `aluRegs` with the exact product. -/
theorem mulIsModulo256 : Obligations.MulIsModulo256 :=
  fun _ _ _ _ _ hi hj hpc => aluRegs_modulo256 .mul hi hj hpc

/-! ### CMP -/

/-- Everything a comparison can answer (R107, decision D5). -/
theorem compareBytes_cases (v w : Byte) :
    (v.toNat < w.toNat ∧ compareBytes v w = .less) ∨ (v = w ∧ compareBytes v w = .equal) ∨
      (w.toNat < v.toNat ∧ compareBytes v w = .greater) := by
  obtain h | h | h := Nat.lt_trichotomy v.toNat w.toNat
  · exact .inl ⟨h, (if_neg h.ne).trans (if_pos h)⟩
  · exact .inr (.inl ⟨BitVec.eq_of_toNat_eq h, if_pos h⟩)
  · exact .inr (.inr ⟨h, (if_neg h.ne').trans (if_neg h.le.not_gt)⟩)

/-- The flag says which of the three holds, since no two of them hold together. -/
theorem compareBytes_iff (v w : Byte) :
    (compareBytes v w = .equal ↔ v = w) ∧ (compareBytes v w = .less ↔ v.toNat < w.toNat) ∧
      (compareBytes v w = .greater ↔ w.toNat < v.toNat) := by
  obtain ⟨h, hc⟩ | ⟨rfl, hc⟩ | ⟨h, hc⟩ := compareBytes_cases v w
  · have hne : v ≠ w := fun hvw => h.ne (congrArg BitVec.toNat hvw)
    simp [hc, h, hne, h.le]
  · simp [hc]
  · have hne : v ≠ w := fun hvw => h.ne' (congrArg BitVec.toNat hvw)
    simp [hc, h, hne, h.le]

/-- Settles O29: the next state is CMP's `Effect`, whose flag is `compareBytes_iff`'s and whose pc does not wrap. -/
theorem cmpWritesOneFlag : Obligations.CmpWritesOneFlag := by
  intro s a b i j hi hj hpc
  obtain ⟨hequal, hless, hgreater⟩ := compareBytes_iff (s.readReg i) (s.readReg j)
  have hadvance (f : FlagState) : ((s.setFlags f).advance 3).pc.toNat = s.pc.toNat + 3 :=
    State.advance_pc_toNat (s := s.setFlags f) hpc (by decide)
  exact ⟨_, exec_of_effect (.cmp a b i j hi hj), hequal, hless, hgreater, hadvance _, rfl, ⟨rfl, rfl⟩, fun _ => rfl,
    fun _ => rfl⟩

end Sys2Proof.Machine
end

section
/-! Proofs of the stack family (44_stack.md): PUSH, what POP into any register shares, the stack faults, and PUSH followed
by POP. -/

namespace Sys2Proof.Machine

variable {opc : OpcodeMap} {s t u : State} {i : Instr} {c : Cause} {r : Byte} {k : RegIdx}

/-! ### PUSH -/

/-- A lowered stack pointer is the number before, since 0 was refused (decision D10). -/
theorem toNat_sub_one_add_one {v : Byte} (h : v ≠ 0) : (v - 1).toNat + 1 = v.toNat := by
  have hpos : v.toNat ≠ 0 := fun h0 => h (BitVec.eq_of_toNat_eq h0)
  have hsub : (v - 1).toNat = v.toNat - 1 := toNat_sub_one h
  omega

/-- A push writes no cell but the one that the lowered stack pointer names. -/
theorem State.sameMemoryBut_pushed (hs : s.sp ≠ 0) (v : Byte) :
    SameMemoryBut (s.sp - 1).toNat s ((s.setSp (s.sp - 1)).storeTop v) := by
  intro b hb
  have hcell := toNat_sub_one_add_one hs
  rw [State.pushed_readByte hs, if_neg (by omega)]

/-- Settles O30: the next state is PUSH's `Effect`, whose stack pointer and pc do not wrap. -/
theorem pushStoresBelowTheStackPointer : Obligations.PushStoresBelowTheStackPointer := by
  intro s r i hi hs hpc
  have hsp : (s.setSp (s.sp - 1)).sp = s.sp - 1 := s.setSp_sp _
  have hlowered : (s.setSp (s.sp - 1)).sp.toNat + 1 = s.sp.toNat := by rw [hsp, toNat_sub_one_add_one hs]
  have hcell (v : Byte) : ((s.setSp (s.sp - 1)).storeTop v).readByte (s.sp - 1).toNat = v := by
    rw [State.pushed_readByte hs, if_pos (toNat_sub_one_add_one hs)]
  have hadvance (v : Byte) : (((s.setSp (s.sp - 1)).storeTop v).advance 2).pc.toNat = s.pc.toNat + 2 :=
    State.advance_pc_toNat (s := (s.setSp (s.sp - 1)).storeTop v) hpc (by decide)
  exact ⟨_, exec_of_effect (.push r i hi hs), hsp, hlowered, (hcell _).trans (s.setSp_readReg i _),
    State.sameMemoryBut_pushed hs _, s.sameRegsBut_writeReg 7 _, hadvance _, rfl, rfl, rfl, rfl⟩

/-! ### POP -/

theorem SameRegsBut.trans {ks ls : List RegIdx} (h : SameRegsBut ks s t) (h' : SameRegsBut ls t u) :
    SameRegsBut (ks ++ ls) s u := by
  intro k hk
  rw [List.mem_append, not_or] at hk
  obtain ⟨hks, hls⟩ := hk
  exact (h' k hls).trans (h k hks)

theorem SameRegsBut.mono {ks ls : List RegIdx} (h : SameRegsBut ks s t) (hsub : ks ⊆ ls) : SameRegsBut ls s t :=
  fun k hk => h k fun hks => hk (hsub hks)

/-- POP into any register (R116): the stack pointer ends 1 above what it is after the register is written (decision D9),
where that is not 255. -/
theorem exec_pop_names (hk : Names r k) (hs : (s.writeReg k s.top).sp ≠ 255) (hpc : s.pc.toNat ≤ 258) :
    ∃ t, exec (.pop r) s = .next t ∧ (k ≠ 7 → t.readReg k = s.top) ∧
      t.sp.toNat = (s.writeReg k s.top).sp.toNat + 1 ∧ SameRegsBut [k, 7] s t ∧ SameMemory s t ∧
      t.pc.toNat = s.pc.toNat + 2 ∧ t.fl = s.fl ∧ t.out = s.out ∧ SameControl s t := by
  have hpopped (h7 : k ≠ 7) : (s.writeReg k s.top).raiseSp.readReg k = s.top := by
    rw [State.raiseSp_readReg, if_neg h7, State.writeReg_readReg, if_pos rfl]
  have hraised : (s.writeReg k s.top).raiseSp.sp.toNat = (s.writeReg k s.top).sp.toNat + 1 := by
    rw [State.raiseSp_sp]
    exact toNat_add_one hs
  have hregs : SameRegsBut [k, 7] s (s.writeReg k s.top).raiseSp :=
    (s.sameRegsBut_writeReg k s.top).trans ((s.writeReg k s.top).sameRegsBut_writeReg 7 _)
  have hadvance : ((s.writeReg k s.top).raiseSp.advance 2).pc.toNat = s.pc.toNat + 2 :=
    State.advance_pc_toNat (s := (s.writeReg k s.top).raiseSp) hpc (by decide)
  exact ⟨_, exec_of_effect (.pop r k hk hs), hpopped, hraised, hregs, fun _ => rfl, hadvance, rfl, rfl, rfl, rfl⟩

/-- Settles O31: writing a register other than 7 leaves the stack pointer for `exec_pop_names` to raise. -/
theorem popLoadsTheTopOfTheStack : Obligations.PopLoadsTheTopOfTheStack := by
  intro s r i hi hi7 hs hpc
  have hsp : (s.writeReg i s.top).sp = s.sp := s.writeReg_sp_ne s.top hi7
  obtain ⟨t, ht, hreg, htsp, hframe⟩ := exec_pop_names hi (hsp.trans_ne hs) hpc
  exact ⟨t, ht, hreg hi7, htsp.trans (congrArg (·.toNat + 1) hsp), hframe⟩

/-- Settles O32: the register written is the stack pointer, so `exec_pop_names` raises the popped byte. -/
theorem popIntoTheStackPointer : Obligations.PopIntoTheStackPointer := by
  intro s hbyte hpc
  have hsp : (s.writeReg 7 s.top).sp = s.top := s.setSp_sp s.top
  obtain ⟨t, ht, -, htsp, hregs, hframe⟩ := exec_pop_names (r := 7) (k := 7) rfl (hsp.trans_ne hbyte) hpc
  exact ⟨t, ht, htsp.trans (congrArg (·.toNat + 1) hsp), hregs.mono (by simp), hframe⟩

/-! ### Where the stack instructions fault -/

theorem Names.lt (h : Names r k) : r.toNat < 8 := h ▸ k.isLt

/-- Where a handler fault's condition holds, it is taken and nothing else changes (R178, R179). -/
theorem HandlerFault.taken (hf : HandlerFault s i c) : ∃ t, exec i s = .next t ∧ FaultTaken s c t :=
  ⟨s.raise c, exec_of_handlerFault hf, s.faultTaken_raise c⟩

/-- Settles O38. -/
theorem pushWithNoRoomFaults : Obligations.PushWithNoRoomFaults :=
  fun _ r _ hi hs => ⟨(HandlerFault.pushFull r hi.lt hs).taken, fun hpc => (HandlerFault.callFull r hi.lt hpc hs).taken⟩

/-- Settles O39: POP checks the stack pointer after its register is written, which is the popped byte for register 7. -/
theorem popPastTheTopFaults : Obligations.PopPastTheTopFaults := by
  refine ⟨fun s r i hi hs => ?_, fun _ hs => (HandlerFault.retFull hs).taken⟩
  have hchecked : (s.writeReg i s.top).sp = 255 := (s.writeReg_sp i s.top).trans hs
  exact (HandlerFault.popFull r i hi hchecked).taken

/-! ### PUSH followed by POP -/

/-- Bytes in memory still stand there when the one cell that changed is none of theirs. -/
theorem BytesAt.of_sameMemoryBut {a b : Nat} {bs : List Byte} (h : BytesAt s a bs) (hm : SameMemoryBut b s t)
    (hb : ∀ n < bs.length, a + n ≠ b) : BytesAt t a bs :=
  h.imp_right fun hbs n hn => (hm (a + n) (hb n hn)).trans (hbs n hn)

/-- Settles O50: the PUSH leaves the POP's two bytes in memory and its own register on top of the stack
(`pushStoresBelowTheStackPointer`), and the POP takes it from there (`popLoadsTheTopOfTheStack`). -/
theorem pushThenPopPreservesTheValue : Obligations.PushThenPopPreservesTheValue := by
  intro opc hopc s r1 r2 i j hr hb hi hj hi7 hj7 hs hcell2 hcell3
  obtain ⟨hpush, hpop⟩ := hb.of_append
  have hpc : s.pc.toNat + 2 + 2 ≤ 256 := hpop.1
  have hlt := s.sp.isLt
  obtain ⟨t, ht, htsp, hlowered, hcell, hmem, hregs, htpc, hfl, hout, hrun, hfault⟩ :=
    pushStoresBelowTheStackPointer s r1 i hi hs (by omega)
  have hpop' : BytesAt t t.pc.toNat (encode opc (.pop r2)) := by
    rw [htpc]
    refine hpop.of_sameMemoryBut hmem fun n (hn : n < 2) => ?_
    rw [← htsp]
    change s.pc.toNat + 2 + n ≠ t.sp.toNat
    omega
  have hroom : t.sp ≠ 255 := fun h => by
    have h255 : t.sp.toNat = 255 := congrArg BitVec.toNat h
    omega
  obtain ⟨u, hu, hreg, husp, hregs', -, hupc, hfl', hout', hrun', hfault'⟩ :=
    popLoadsTheTopOfTheStack t r2 j hj hj7 hroom (by omega)
  have hsp : u.sp = s.sp := BitVec.eq_of_toNat_eq (husp.trans hlowered)
  refine ⟨t, u, (stepWith_of_bytesAt hopc hr hpush).trans ht,
    (stepWith_of_bytesAt hopc (hrun.trans hr) hpop').trans hu, ?_, hsp, by omega, fun k hk => ?_, hfl'.trans hfl,
    hout'.trans hout, hrun'.trans hrun, hfault'.trans hfault⟩
  · rw [hreg, htsp, hcell, if_neg hi7]
  · by_cases h7 : k = 7
    · rw [h7]
      exact hsp
    · exact hregs.trans hregs' k (by simpa [h7] using hk)

end Sys2Proof.Machine
end

section
/-! Proofs of the subroutine family (45_call_return.md): CALL, RET, CALL with no return address, and RET behind a CALL. -/

namespace Sys2Proof.Machine

variable {s : State}

/-- A jump does not wrap: the target is a byte, held in a wider pc (R138). -/
theorem State.jumpTo_pc_toNat (s : State) (v : Byte) : (s.jumpTo v).pc.toNat = v.toNat := zext9_toNat v

/-- Settles O33: the next state is CALL's `Effect`, which pushes a return address that is a byte (decision D12). -/
theorem callPushesTheReturnAddress : Obligations.CallPushesTheReturnAddress := by
  intro s r i hi hpc hs
  have hsp : (s.setSp (s.sp - 1)).sp = s.sp - 1 := s.setSp_sp _
  have hlowered : (s.setSp (s.sp - 1)).sp.toNat + 1 = s.sp.toNat := by rw [hsp, toNat_sub_one_add_one hs]
  have hra : (BitVec.ofNat 8 (s.pc.toNat + 2)).toNat = s.pc.toNat + 2 := Nat.mod_eq_of_lt (Nat.lt_succ_of_le hpc)
  have hcell (v : Byte) : ((s.setSp (s.sp - 1)).storeTop v).readByte (s.sp - 1).toNat = v := by
    rw [State.pushed_readByte hs, if_pos (toNat_sub_one_add_one hs)]
  have htarget : (s.setSp (s.sp - 1)).readReg i = if i = 7 then s.sp - 1 else s.readReg i := s.setSp_readReg i _
  exact ⟨_, exec_of_effect (.call r i hi hpc hs), hsp, hlowered, (congrArg BitVec.toNat (hcell _)).trans hra,
    State.sameMemoryBut_pushed hs _, (State.jumpTo_pc_toNat _ _).trans (congrArg BitVec.toNat htarget),
    s.sameRegsBut_writeReg 7 _, rfl, rfl, rfl, rfl⟩

/-- Settles O34: the next state is RET's `Effect`, whose stack pointer does not wrap. -/
theorem retPopsThePc : Obligations.RetPopsThePc := by
  intro s hs
  have hraised : s.raiseSp.sp.toNat = s.sp.toNat + 1 := by
    rw [State.raiseSp_sp]
    exact toNat_add_one hs
  exact ⟨_, exec_of_effect (.ret hs), State.jumpTo_pc_toNat _ _, hraised, s.sameRegsBut_writeReg 7 _, fun _ => rfl, rfl,
    rfl, rfl, rfl⟩

/-- Settles O40: CALL checks the return address before the stack (R177). -/
theorem callAtTheTopOfMemoryFaults : Obligations.CallAtTheTopOfMemoryFaults :=
  fun _ r _ hi hpc => (HandlerFault.returnAddress r hi.lt hpc).taken

/-- Settles O51: the CALL leaves the return address on top of a stack with room for a pop
(`callPushesTheReturnAddress`), and the RET takes it from there (`retPopsThePc`). -/
theorem retReturnsBehindTheCall : Obligations.RetReturnsBehindTheCall := by
  intro s t u r i hi hpc hs ht hsp hbyte
  obtain ⟨htsp, hlowered, hcell, -⟩ := of_exists_eq_next ht (callPushesTheReturnAddress s r i hi hpc hs)
  have hroom : u.sp ≠ 255 := fun h => by
    have h255 : t.sp.toNat = 255 := congrArg BitVec.toNat (hsp.symm.trans h)
    have hlt := s.sp.isLt
    omega
  obtain ⟨v, hv, hvpc, hvsp, hframe⟩ := retPopsThePc u hroom
  have hra : v.pc.toNat = s.pc.toNat + 2 := by rw [hvpc, hbyte, htsp, hcell]
  have hrestored : v.sp.toNat = s.sp.toNat := by rw [hvsp, hsp, hlowered]
  exact ⟨v, hv, hra, BitVec.eq_of_toNat_eq hrestored, hframe⟩

end Sys2Proof.Machine
end

section
/-! Proofs of the jump family (46_jumps.md): what JMP, JEQ and JNE share, and the conditional jumps behind a CMP. -/

namespace Sys2Proof.Machine

variable {s : State} {r : Byte} {i : RegIdx}

/-- R135 to R137 for a jump taken or not: only the pc changes. A taken jump needs no bound on the pc before it. -/
theorem jumpWhen_movesPc (taken : Bool) (hi : Names r i) (hpc : taken = false → s.pc.toNat ≤ 258) :
    ∃ t, jumpWhen taken r s = .next t ∧
      t.pc.toNat = (if taken then (s.readReg i).toNat else s.pc.toNat + 2) ∧
      SameRegs s t ∧ SameMemory s t ∧ t.fl = s.fl ∧ t.out = s.out ∧ SameControl s t := by
  cases taken with
  | true =>
    exact ⟨_, withReg_names hi s _, State.jumpTo_pc_toNat s _, fun _ => rfl, fun _ => rfl, rfl, rfl, rfl, rfl⟩
  | false =>
    have hadvance : (s.advance 2).pc.toNat = s.pc.toNat + 2 := State.advance_pc_toNat (hpc rfl) (by decide)
    exact ⟨_, withReg_names hi s _, hadvance, fun _ => rfl, fun _ => rfl, rfl, rfl, rfl, rfl⟩

/-- Settles O35: JMP is the jump that is always taken. -/
theorem jmpGoesToTheRegister : Obligations.JmpGoesToTheRegister :=
  fun _ _ _ hi => jumpWhen_movesPc true hi Bool.noConfusion

/-- Settles O36: JEQ is the jump taken when Equal is set. -/
theorem jeqJumpsWhenEqual : Obligations.JeqJumpsWhenEqual := by
  intro s r i hi hpc
  obtain ⟨t, ht, htpc, hframe⟩ := jumpWhen_movesPc s.equalSet hi fun _ => hpc
  exact ⟨t, ht, by simpa [State.equalSet] using htpc, hframe⟩

/-- Settles O37: JNE is the jump taken when Equal is not set. -/
theorem jneJumpsWhenNotEqual : Obligations.JneJumpsWhenNotEqual := by
  intro s r i hi hpc
  obtain ⟨t, ht, htpc, hframe⟩ := jumpWhen_movesPc (!s.equalSet) hi fun _ => hpc
  exact ⟨t, ht, by simpa [State.equalSet] using htpc, hframe⟩

/-- Settles O52: the CMP sets Equal exactly when the registers are equal (`cmpWritesOneFlag`), keeps the registers and
leaves a pc of at most 258, from which the two jumps go on (`jeqJumpsWhenEqual`, `jneJumpsWhenNotEqual`). -/
theorem compareThenJump : Obligations.CompareThenJump := by
  intro s t a b r i j k hi hj hk hpc ht
  obtain ⟨hequal, -, -, htpc, -, -, hregs, -⟩ := of_exists_eq_next ht (cmpWritesOneFlag s a b i j hi hj (by omega))
  obtain ⟨u, hu, hupc, -⟩ := jeqJumpsWhenEqual t r k hk (by omega)
  obtain ⟨v, hv, hvpc, -⟩ := jneJumpsWhenNotEqual t r k hk (by omega)
  rw [hregs k, htpc] at hupc hvpc
  refine ⟨u, v, hu, hv, fun heq => ?_, fun hne => ?_⟩
  · have hfl := hequal.mpr heq
    exact ⟨hupc.trans (if_pos hfl), hvpc.trans (if_pos hfl)⟩
  · have hfl := mt hequal.mp hne
    exact ⟨hupc.trans (if_neg hfl), hvpc.trans (if_neg hfl)⟩

end Sys2Proof.Machine
end

section
/-! Proofs of the interfaces family (50_interfaces.md): the load interface. -/

namespace Sys2Proof.Machine

variable {s : State} {sp : Byte} {fl : FlagState} {image : List Byte}

/-- With the empty image, reset and load are reset alone, whatever the open parameters. -/
theorem bootWith_nil (sp : Byte) (fl : FlagState) : bootWith sp fl [] = some (State.resetWith sp fl) := rfl

/-- Reset clears memory (R200). -/
@[simp] theorem State.resetWith_readByte (sp : Byte) (fl : FlagState) (a : Nat) :
    (State.resetWith sp fl).readByte a = 0 := Memory.read_nil a

/-- An image that fits in memory is loaded (R150). -/
theorem exists_bootWith_eq_some (sp : Byte) (fl : FlagState) (h : image.length ≤ 256) :
    ∃ s, bootWith sp fl image = some s := ⟨_, bootWith_eq_some.mpr ⟨h, rfl⟩⟩

/-- After a load, a cell holds the image's byte of its number, and 0 where the image has none (R150). -/
theorem bootWith_readByte (h : bootWith sp fl image = some s) (a : Nat) :
    s.readByte a = if ha : a < image.length then image[a] else 0 := by
  obtain ⟨hlen, rfl⟩ := bootWith_eq_some.mp h
  have hfits : 0 + image.length ≤ 256 := (Nat.zero_add _).symm ▸ hlen
  simpa [State.readByte] using Memory.read_storeAt [] 0 image hfits a

/-- After reset alone, the first step fetches a 0 at address 0, which faults where 0 is no opcode (R150). -/
theorem FetchFault.of_resetWith {opc : OpcodeMap} (hopc : ∀ m, opc m ≠ 0x00) (sp : Byte) (fl : FlagState) :
    FetchFault opc (State.resetWith sp fl) (.unknownOpcode 0x00) :=
  .unknown (Nat.zero_le _) hopc

/-- Settles O9: the cells by `bootWith_readByte`; the empty image leaves the reset state, whose fetch faults. -/
theorem imageIsLoadedFromAddressZero : Obligations.ImageIsLoadedFromAddressZero := by
  refine ⟨fun sp fl image hlen => ?_, fun opc hopc sp fl => ?_⟩
  · obtain ⟨s, hboot⟩ := exists_bootWith_eq_some sp fl hlen
    refine ⟨s, hboot, fun a ha => ?_, fun a ha => ?_⟩
    · rw [bootWith_readByte hboot, dif_pos ha]
    · rw [bootWith_readByte hboot, dif_neg (Nat.not_lt.mpr ha)]
  · obtain ⟨t, ht, hfault⟩ := (FetchFault.of_resetWith hopc sp fl).taken rfl
    exact ⟨_, t, bootWith_nil sp fl, State.resetWith_readByte sp fl, rfl, ht, hfault⟩

/-- Settles O11: an image that gives a state fits in memory. -/
theorem oversizeImageDoesNotStart : Obligations.OversizeImageDoesNotStart := by
  intro sp fl image hlen
  refine Option.eq_none_iff_forall_ne_some.mpr fun s hs => ?_
  obtain ⟨hfits, -⟩ := bootWith_eq_some.mp hs
  exact Nat.not_le.mpr hlen hfits

end Sys2Proof.Machine
end

section
/-! Proofs of the interfaces family (50_interfaces.md): the output and the exit status. -/

namespace Sys2Proof.Machine

variable {opc : OpcodeMap} {s t : State} {i : Instr}

/-! ### The output -/

/-- An effect leaves the output alone, or it is PRN's and appends the value of the register its operand names (R153). -/
theorem Effect.out_cases (he : Effect s i t) :
    t.out = s.out ∨ ∃ r k, i = .prn r ∧ Names r k ∧ t.out = s.out ++ [s.readReg k] := by
  cases he with
  | prn r k h => exact .inr ⟨r, k, rfl, h, rfl⟩
  | jeq | jne => exact .inl (by split <;> rfl)
  | _ => exact .inl rfl

/-- PRN's operand is the byte behind its opcode. -/
theorem Fetched.prn_operand {r : Byte} (hf : Fetched opc s (.prn r)) : r = s.readByte (s.pc.toNat + 1) :=
  List.head_eq_of_cons_eq hf.operands

/-- Settles O46: a step is an effect of the fetched instruction or a fault, and a fault emits nothing. -/
theorem onlyPrnProducesOutput : Obligations.OnlyPrnProducesOutput := by
  intro opc _ s t h
  obtain ⟨-, ⟨i, hi, he | ⟨c, rfl, -⟩⟩ | ⟨c, rfl, -⟩⟩ := stepWith_next h
  · obtain hout | ⟨r, k, rfl, hk, hout⟩ := he.out_cases
    · exact .inl hout
    · exact .inr ⟨hi.opcodeAtPc, k, hi.prn_operand ▸ hk, hout⟩
  · exact .inl rfl
  · exact .inl rfl

/-! ### The exit status -/

theorem State.exitStatus_of_running (hr : s.run = .running) : s.exitStatus = none := by
  simp only [exitStatus, hr]

theorem State.exitStatus_of_halted (hr : s.run = .halted) : s.exitStatus = some 0 := by
  simp only [exitStatus, hr]

theorem State.exitStatus_of_faulted {f : FaultRecord} (hr : s.run = .faulted) (hf : s.fault = some f) :
    s.exitStatus = some f.cause.code := by
  simp only [exitStatus, hr, hf, Option.map_some]

/-- A faulted state with the invariant has a record, of one of the two causes that can arise (R24, R173). -/
theorem State.Inv.fault_cases (hs : s.Inv) (hr : s.run = .faulted) :
    (∃ op pc, s.fault = some ⟨.unknownOpcode op, pc⟩) ∨ ∃ kind n pc, s.fault = some ⟨.outOfBoundsAccess kind n, pc⟩ := by
  obtain ⟨⟨cause, pc⟩, hf⟩ := Option.isSome_iff_exists.mp (hs.fault_iff.mpr hr)
  obtain ⟨-, hcause⟩ := hs.fault_pc _ hf
  cases cause with
  | unknownOpcode op => exact .inl ⟨op, pc, hf⟩
  | outOfBoundsAccess kind n => exact .inr ⟨kind, n, pc, hf⟩
  | unsupportedALUOperation => exact absurd rfl hcause

/-- Settles O55: a running and a halted state have no record, and a faulted one has a record of code 1 or 2. -/
theorem exitStatusIsZeroExactlyOnHalt : Obligations.ExitStatusIsZeroExactlyOnHalt := by
  intro s hs
  cases hr : s.run with
  | running =>
    have hf := hs.fault_eq_none (by simp [hr])
    simp [State.exitStatus_of_running hr, hf]
  | halted =>
    have hf := hs.fault_eq_none (by simp [hr])
    simp [State.exitStatus_of_halted hr, hf]
  | faulted =>
    obtain ⟨op, pc, hf⟩ | ⟨kind, n, pc, hf⟩ := hs.fault_cases hr
    · simp [State.exitStatus_of_faulted hr hf, hf, Cause.code]
    · simp [State.exitStatus_of_faulted hr hf, hf, Cause.code]

end Sys2Proof.Machine
end

section
/-! Proofs of the exceptions family (60_exceptions.md): a fault ends execution and changes nothing else, and which causes
a step and a handler can raise. -/

namespace Sys2Proof.Machine

variable {opc : OpcodeMap} {s t : State} {i : Instr} {c : Cause}

/-- No step is taken after a fault (R71, R180). -/
theorem FaultTaken.stepWith_ne_next (hf : FaultTaken s c t) (u : State) : stepWith opc t ≠ .next u := fun hu =>
  RunState.noConfusion (hf.1.symm.trans (run_of_stepWith_eq_next hu))

/-- An effect leaves a running machine running or halted. -/
theorem Effect.run_ne_faulted (he : Effect s i t) (hr : s.run = .running) : t.run ≠ .faulted := by
  rw [he.run_eq, hr]
  split <;> exact RunState.noConfusion

/-- A handler raises index faults only (R171, R172). -/
theorem HandlerFault.ne_unknownOpcode (hf : HandlerFault s i c) (op : Byte) : c ≠ .unknownOpcode op := by
  cases hf <;> exact Cause.noConfusion

/-- Settles O15: the decode stage raises it by `FetchFault.unknown`, a handler has only index faults to raise. -/
theorem unknownOpcodeIsFatal : Obligations.UnknownOpcodeIsFatal := by
  constructor
  · intro opc s hr hpc hu
    obtain ⟨t, ht, hf⟩ := (FetchFault.unknown hpc hu).taken hr
    exact ⟨t, ht, hf, hf.stepWith_ne_next⟩
  · intro i s t op pc h hrec
    obtain he | ⟨c, rfl, hf⟩ := exec_next h
    · exact he.fault_eq.symm.trans hrec
    · cases hrec
      exact absurd rfl (hf.ne_unknownOpcode op)

/-- Settles O20: an effect does not fault, and every other answer of a step is a fault taken by the state it began in. -/
theorem faultingStepChangesNothingElse : Obligations.FaultingStepChangesNothingElse := by
  intro opc s t h ht
  obtain ⟨c, rfl⟩ : ∃ c, t = s.raise c := by
    obtain ⟨hr, ⟨i, -, he | ⟨c, hc, -⟩⟩ | ⟨c, hc, -⟩⟩ := stepWith_next h
    · exact absurd ht (he.run_ne_faulted hr)
    · exact ⟨c, hc⟩
    · exact ⟨c, hc⟩
  have hf := s.faultTaken_raise c
  exact ⟨⟨c, hf⟩, hf.stepWith_ne_next⟩

/-- Settles O21: an effect keeps the record, and neither the fetch nor a handler has this cause to raise. -/
theorem unsupportedAluOperationUnreachable : Obligations.UnsupportedAluOperationUnreachable := by
  intro opc s t h
  obtain ⟨-, ⟨i, -, he | ⟨c, rfl, hf⟩⟩ | ⟨c, rfl, hf⟩⟩ := stepWith_next h
  · exact .inl he.fault_eq
  · exact .inr ⟨_, rfl, hf.cause_ne⟩
  · exact .inr ⟨_, rfl, hf.cause_ne⟩

end Sys2Proof.Machine
end

section
/-! Proofs of the exceptions family (60_exceptions.md): R177's list of checks. Once the opcode at the pc is known to be
`m`'s, the list is that of `m` alone, and falls into the operand, the register and the stack checks. -/

namespace Sys2Proof.Machine

variable {opc : OpcodeMap} {s t : State} {i : Instr} {c : Cause} {m : Mnemonic} {o1 o2 : Byte}

/-! ### The list of a known opcode -/

/-- R177's checks of the operand bytes' addresses, for an instruction of format `f` at `pc`. -/
def operandChecks (pc : Nat) (f : Format) : List (Bool × Cause) :=
  [ ((f == .r || f == .rr || f == .ri) && decide (pc + 1 > 255), .outOfBoundsAccess .operandFetch (pc + 1 : Nat)),
    ((f == .rr || f == .ri) && decide (pc + 2 > 255), .outOfBoundsAccess .operandFetch (pc + 2 : Nat)) ]

/-- R177's checks of the register operands, for an instruction of format `f` with operand bytes `o1` and `o2`. -/
def registerChecks (f : Format) (o1 o2 : Byte) : List (Bool × Cause) :=
  [ ((f == .r || f == .rr || f == .ri) && decide (o1.toNat > 7), .outOfBoundsAccess .registerIndex o1.toNat),
    (f == .rr && decide (o2.toNat > 7), .outOfBoundsAccess .registerIndex o2.toNat) ]

/-- R177's checks of the return address and the stack, for the mnemonic `m` with first operand byte `o1`. -/
def stackChecks (s : State) (m : Mnemonic) (o1 : Byte) : List (Bool × Cause) :=
  [ (m == .call && decide (s.pc.toNat + 2 > 255), .outOfBoundsAccess .returnAddress (s.pc.toNat + 2 : Nat)),
    ((m == .push || m == .call) && decide (s.sp.toNat = 0), .outOfBoundsAccess .stackWrite (-1)),
    (m == .pop && decide ((if o1.toNat = 7 then s.readByte s.sp.toNat else s.sp).toNat = 255),
      .outOfBoundsAccess .stackPointer 256),
    (m == .ret && decide (s.sp.toNat = 255), .outOfBoundsAccess .stackPointer 256) ]

@[simp] theorem firstFailing_nil : firstFailing [] = none := rfl

@[simp] theorem firstFailing_cons (b : Bool) (c : Cause) (l : List (Bool × Cause)) :
    firstFailing ((b, c) :: l) = if b then some c else firstFailing l := rfl

/-- The checks of one list come before those of the other. -/
theorem firstFailing_append (l l' : List (Bool × Cause)) :
    firstFailing (l ++ l') = (firstFailing l).or (firstFailing l') := by
  induction l with
  | nil => rfl
  | cons p l ih =>
    obtain ⟨b, c⟩ := p
    cases b with
    | true => rfl
    | false => exact ih

/-- Under an injective assignment, comparing opcodes is comparing mnemonics (R55). -/
theorem opcode_beq (hopc : opc.Legal) (m n : Mnemonic) : (opc m == opc n) = (m == n) :=
  beq_eq_beq.mpr ⟨hopc.1 m n, congrArg opc⟩

theorem any_mnemonic_eq (m : Mnemonic) : (Mnemonic.all.any fun n => m == n) = true :=
  List.any_eq_true.mpr ⟨m, m.mem_all, beq_self_eq_true m⟩

/-- The format of the one mnemonic in the table that is `m` is `m`'s. -/
theorem any_format_eq (m : Mnemonic) (f : Format) :
    (Mnemonic.all.any fun n => m == n && n.format == f) = (m.format == f) := by
  rw [Bool.eq_iff_iff, List.any_eq_true]
  simp [Mnemonic.mem_all]

/-- With the opcode of `m` at the pc, the first two checks of R177 pass and the rest ask about `m`. -/
theorem firstFault_of_opcodeAtPc (hopc : opc.Legal) (hop : OpcodeAtPc opc s m) :
    firstFault opc s = ((firstFailing (operandChecks s.pc.toNat m.format)).or
      (firstFailing (registerChecks m.format (s.readByte (s.pc.toNat + 1)) (s.readByte (s.pc.toNat + 2))))).or
      (firstFailing (stackChecks s m (s.readByte (s.pc.toNat + 1)))) := by
  obtain ⟨hpc, hbyte⟩ := hop
  have hfetch : decide (s.pc.toNat > 255) = false := decide_eq_false (Nat.not_lt.mpr hpc)
  rw [← firstFailing_append, ← firstFailing_append]
  simp only [firstFault, faultChecks, hbyte, opcode_beq hopc, any_format_eq, any_mnemonic_eq, hfetch]
  rfl

/-! ### The parts of the list -/

/-- The operand checks of a pc in memory fail when the last operand is outside, at the first address outside (R75). -/
theorem firstFailing_operandChecks {pc : Nat} (hpc : pc ≤ 255) (m : Mnemonic) :
    firstFailing (operandChecks pc m.format) =
      if 255 < pc + m.operandCount then some (.outOfBoundsAccess .operandFetch 256) else none := by
  rw [Mnemonic.operandCount]
  cases m.format with
  | n => exact (if_neg (Nat.not_lt.mpr hpc)).symm
  | r | rr | ri =>
    obtain h | rfl | rfl : pc ≤ 253 ∨ pc = 254 ∨ pc = 255 := by omega
    · have h1 : ¬ 255 < pc + 1 := by omega
      have h2 : ¬ 255 < pc + 2 := by omega
      simp [operandChecks, Format.operandCount, h1, h2]
    · rfl
    · rfl

/-- The register checks report R76's first bad register. -/
theorem firstFailing_registerChecks (ho : i.operands = ([o1, o2] : List Byte).take i.mnemonic.operandCount) :
    firstFailing (registerChecks i.mnemonic.format o1 o2) =
      i.firstBadRegister.map fun r => .outOfBoundsAccess .registerIndex r.toNat := by
  have hn : (i.mnemonic.format == .r || i.mnemonic.format == .rr || i.mnemonic.format == .ri) =
      decide (i.mnemonic.format ≠ .n) := by
    cases i.mnemonic.format <;> rfl
  rw [firstBadRegister_eq ho, apply_ite (Option.map _), apply_ite (Option.map _)]
  simp [registerChecks, hn]

theorem State.sp_toNat_eq_zero : s.sp.toNat = 0 ↔ s.sp = 0 := BitVec.toNat_inj (y := 0)

theorem State.sp_toNat_eq_255 : s.sp.toNat = 255 ↔ s.sp = 255 := BitVec.toNat_inj (y := 255)

/-- The popped stack pointer that R177 speaks of is the one POP's handler checks. -/
theorem popped_sp_toNat_eq_255 (k : RegIdx) :
    (if k.val = 7 then s.readByte s.sp.toNat else s.sp).toNat = 255 ↔ (s.writeReg k s.top).sp = 255 := by
  rw [← State.view_popped_sp_eq_255, apply_ite BitVec.toNat, State.view_x_seven]
  rfl

/-- Where the instruction's effect happens, the stack checks have passed. -/
theorem Effect.firstFailing_stackChecks (he : Effect s i t)
    (ho : i.operands = ([o1, o2] : List Byte).take i.mnemonic.operandCount) :
    firstFailing (stackChecks s i.mnemonic o1) = none := by
  cases he with
  | push r k h hs =>
    have hroom := mt State.sp_toNat_eq_zero.mp hs
    simp [stackChecks, Instr.mnemonic, hroom]
  | call r k h hpc hs =>
    have hret : ¬ 255 < s.pc.toNat + 2 := Nat.not_lt.mpr hpc
    have hroom := mt State.sp_toNat_eq_zero.mp hs
    simp [stackChecks, Instr.mnemonic, hret, hroom]
  | pop r k h hs =>
    cases ho
    have hroom := mt (popped_sp_toNat_eq_255 k).mp hs
    rw [← h] at hroom
    simp [stackChecks, Instr.mnemonic, hroom]
  | ret hs =>
    have hroom := mt State.sp_toNat_eq_255.mp hs
    simp [stackChecks, Instr.mnemonic, hroom]
  | _ => rfl

/-- A handler fault that is no register fault is that of the first failing stack check. -/
theorem HandlerFault.firstFailing_stackChecks (hf : HandlerFault s i c) (hb : i.firstBadRegister = none)
    (ho : i.operands = ([o1, o2] : List Byte).take i.mnemonic.operandCount) :
    firstFailing (stackChecks s i.mnemonic o1) = some c := by
  cases hf with
  | register i r h => cases hb.symm.trans h
  | returnAddress r hr h => simp [stackChecks, Instr.mnemonic, h]
  | pushFull r hr h => simp [stackChecks, Instr.mnemonic, h]
  | callFull r hr hpc h => simp [stackChecks, Instr.mnemonic, h, hpc]
  | popFull r k hr h =>
    cases ho
    have hfull := (popped_sp_toNat_eq_255 k).mpr h
    rw [← hr] at hfull
    simp [stackChecks, Instr.mnemonic, hfull]
  | retFull h => simp [stackChecks, Instr.mnemonic, h]

/-! ### A step reports the first failing check -/

/-- A fault of the fetch is that of the first failing check. -/
theorem FetchFault.firstFault_eq (hopc : opc.Legal) (hf : FetchFault opc s c) : firstFault opc s = some c := by
  cases hf with
  | fetch h => exact if_pos (decide_eq_true h)
  | unknown h hu =>
    have hnone : ∀ m, (s.readByte s.pc.toNat == opc m) = false := fun m => beq_false_of_ne (hu m).symm
    have hpc : ¬ 255 < s.pc.toNat := Nat.not_lt.mpr h
    simp [firstFault, faultChecks, hnone, hpc]
  | operand m h hm hn =>
    rw [firstFault_of_opcodeAtPc hopc ⟨h, (opcode_of_lookup hm).symm⟩, firstFailing_operandChecks h, if_pos hn]
    rfl

/-- For a fetched instruction the fetch's checks have passed, and what is left are the handler's. -/
theorem Fetched.firstFault_eq (hopc : opc.Legal) (hi : Fetched opc s i) :
    firstFault opc s = (i.firstBadRegister.map fun r => .outOfBoundsAccess .registerIndex r.toNat).or
      (firstFailing (stackChecks s i.mnemonic (s.readByte (s.pc.toNat + 1)))) := by
  rw [firstFault_of_opcodeAtPc hopc hi.opcodeAtPc, firstFailing_operandChecks hi.pc_le_255,
    if_neg (Nat.not_lt.mpr hi.pc_le), firstFailing_registerChecks hi.operands, Option.none_or]

/-- Settles O22: the fetch's fault by `FetchFault.firstFault_eq`, and for a fetched instruction the register check, then
the stack checks. -/
theorem faultIsTheFirstFailingCheck : Obligations.FaultIsTheFirstFailingCheck := by
  intro opc hopc s hr
  obtain ⟨i, hi, -, he⟩ | ⟨c, hf, -, he⟩ := stepWith_cases opc hr
  · rw [hi.firstFault_eq hopc, he]
    cases hb : i.firstBadRegister with
    | some r => exact ⟨_, exec_of_firstBadRegister hb s, s.faultTaken_raise _⟩
    | none =>
      rw [Option.map_none, Option.none_or]
      obtain ⟨t, ht, heff⟩ | ⟨c, hc, hf⟩ := exec_cases i s
      · rw [heff.firstFailing_stackChecks hi.operands]
        exact ⟨t, ht, heff.run_ne_faulted hr, heff.fault_eq⟩
      · rw [hf.firstFailing_stackChecks hb hi.operands]
        exact ⟨s.raise c, hc, s.faultTaken_raise c⟩
  · rw [hf.firstFault_eq hopc]
    exact ⟨s.raise c, he, s.faultTaken_raise c⟩

end Sys2Proof.Machine
end
